-- ==== Sys2Proof/Word.lean ====
section
/-! DEFINITION. The widths of the machine: bytes, addresses of the shared address space, command words. -/

namespace Sys2Proof

/-- Data width of every mapped register: 8 bits (R6). -/
abbrev Byte := BitVec 8

/-- An address of the shared address space, a vector, `Env.pc` or `Env.sp`: 16 bits (R6, R50). -/
abbrev Addr := BitVec 16

/-- A command word of the command port: 32 bits (R70). -/
abbrev Word := BitVec 32

end Sys2Proof
end

