-- ==== Sys2Proof/Config.lean ====
section
/-! DEFINITION. The configuration record `Cfg` of R7, and the environment's instruction executor of R11 as plain data
and, where no answer is given, as a free value. -/

namespace Sys2Proof

/-- The six memory-mapped registers (R9, R29). -/
inductive Reg where
  | divider | counter | reload | control | request | enable
  deriving DecidableEq, Repr, Inhabited

/-- The six registers in the order of the table of R29. -/
def Reg.all : List Reg := [.divider, .counter, .reload, .control, .request, .enable]

/-- The quantities the source leaves to the implementation, R7's record `Cfg`. -/
structure Cfg where
  /-- `ADDR_DIVIDER` -/
  addrDivider : Addr
  /-- `ADDR_COUNTER` -/
  addrCounter : Addr
  /-- `ADDR_RELOAD` -/
  addrReload : Addr
  /-- `ADDR_CONTROL` -/
  addrControl : Addr
  /-- `ADDR_REQUEST` -/
  addrRequest : Addr
  /-- `ADDR_ENABLE` -/
  addrEnable : Addr
  /-- `HIGH_BITS_FORCE_ONE`: bits 7:5 of REQUEST and of ENABLE read as 1 (R28, D5). -/
  highBitsForceOne : Bool
  /-- `CONTROL_READ_HIGH`: what bits 7:3 of CONTROL read as (R94, D6). -/
  controlReadHigh : BitVec 5
  /-- `IDLE_COST`: the cost of a step spent asleep (R148, D10). -/
  idleCost : Nat
  /-- `HALT_BUG_ENABLE`: the double-fetch latch can be armed (R141, D17). -/
  haltBugEnable : Bool
  /-- `RESET_COUNTER` -/
  resetCounter : BitVec 16
  /-- `RESET_SUB` -/
  resetSub : BitVec 10
  /-- `RESET_COUNTER_REG` -/
  resetCounterReg : Byte
  /-- `RESET_RELOAD_REG` -/
  resetReloadReg : Byte
  /-- `RESET_CONTROL` -/
  resetControl : BitVec 3
  /-- `RESET_REQUEST` -/
  resetRequest : Byte
  /-- `RESET_ENABLE` -/
  resetEnable : Byte
  deriving DecidableEq, Repr, Inhabited

/-- The defaults of R7. `HALT_BUG_ENABLE` has no default there: `false` is a DESIGN CHOICE (log entry 3).
The six addresses are the spec's defaults, from general knowledge (log entry 12). -/
def Cfg.default : Cfg where
  addrDivider := 0xFF04
  addrCounter := 0xFF05
  addrReload := 0xFF06
  addrControl := 0xFF07
  addrRequest := 0xFF0F
  addrEnable := 0xFFFF
  highBitsForceOne := false
  controlReadHigh := 0
  idleCost := 4
  haltBugEnable := false
  resetCounter := 0
  resetSub := 0
  resetCounterReg := 0
  resetReloadReg := 0
  resetControl := 0
  resetRequest := 0
  resetEnable := 0

/-- The address of a register (R50). -/
def Cfg.addr (c : Cfg) : Reg → Addr
  | .divider => c.addrDivider
  | .counter => c.addrCounter
  | .reload => c.addrReload
  | .control => c.addrControl
  | .request => c.addrRequest
  | .enable => c.addrEnable

/-- A configuration of the block: the six addresses are pairwise distinct (R7, D27). -/
abbrev Cfg.wf (c : Cfg) : Prop := (Reg.all.map c.addr).Nodup

/-- What the instruction executor may do to the block and to memory inside one `Env.execute` (R11, D24): bus accesses of
one byte, routed by R51 and R52, and the four hooks. -/
inductive ExecAction where
  /-- `MemRead(addr, 1)` -/
  | read (addr : Addr)
  /-- `MemWrite(addr, 1, v)` -/
  | write (addr : Addr) (v : Byte)
  /-- the hook of the return-and-enable instruction -/
  | enImm
  /-- the hook of the immediate-disable instruction -/
  | disImm
  /-- the hook of the delayed-enable instruction -/
  | enDly
  /-- the hook of the sleep instruction -/
  | sleep
  deriving DecidableEq, Repr, Inhabited

/-- One run of `Env.execute` (R11): the actions in the order issued, where `Env.pc` and `Env.sp` end, and the cycle cost. -/
structure ExecAnswer where
  actions : List ExecAction
  pc : Addr
  sp : Addr
  cost : Nat
  deriving DecidableEq, Repr, Inhabited

/-- All that an executor can see when it is called (R11): its own `pc`, `sp` and memory, the six registers as a bus read
returns them, and the block's `refetch` request (R141). -/
structure ExecView where
  pc : Addr
  sp : Addr
  mem : List (Nat × Byte)
  divider : Byte
  counter : Byte
  reload : Byte
  control : Byte
  request : Byte
  enable : Byte
  refetch : Bool
  deriving DecidableEq, Repr, Inhabited

/-- FREE VALUE (log entry 4): what `Env.execute` does where the launch state holds no answer for the call. It may depend
on the configuration, on how many calls came before (the executor's own hidden state) and on all the executor can see. -/
opaque Config.execute : Cfg → Nat → ExecView → ExecAnswer

end Sys2Proof
end

