-- ==== Sys2Proof/Syntax.lean ====
section
/-! DEFINITION. The 23 operations of spec/opcode_table.json, the five interrupt sources and the reasons a command word
is refused at the port. -/

namespace Sys2Proof

/-- The five interrupt sources of the table of R161, bit 0 to bit 4. -/
inductive Source where
  | displayVBlank | displayStatus | timerOverflow | serialComplete | inputEdge
  deriving DecidableEq, Repr, Inhabited

/-- The bit index of a source (R161). -/
def Source.index : Source → Nat
  | .displayVBlank => 0
  | .displayStatus => 1
  | .timerOverflow => 2
  | .serialComplete => 3
  | .inputEdge => 4

/-- The statically ordered table of five entries (R126), lowest index first. -/
def Source.all : List Source :=
  [.displayVBlank, .displayStatus, .timerOverflow, .serialComplete, .inputEdge]

/-- Why a command word spells no operation (R79): `illegal` is R80, `notMine` is R81. -/
inductive RefuseReason where
  | illegal | notMine
  deriving DecidableEq, Repr, Inhabited

/-- The operations of the block, one constructor per row of spec/opcode_table.json (R71, R74). -/
inductive Instr where
  /-- `RD DIVIDER`, R114 -/
  | rdDivider
  /-- `WR DIVIDER, v`, R115 -/
  | wrDivider (v : Byte)
  /-- `RD COUNTER`, R90 -/
  | rdCounter
  /-- `WR COUNTER, v`, R91 -/
  | wrCounter (v : Byte)
  /-- `RD RELOAD`, R92 -/
  | rdReload
  /-- `WR RELOAD, v`, R93 -/
  | wrReload (v : Byte)
  /-- `RD CONTROL`, R94 -/
  | rdControl
  /-- `WR CONTROL, v`, R95 -/
  | wrControl (v : Byte)
  /-- `RD REQUEST`, R96 -/
  | rdRequest
  /-- `WR REQUEST, v`, R97 -/
  | wrRequest (v : Byte)
  /-- `RD ENABLE`, R98 -/
  | rdEnable
  /-- `WR ENABLE, v`, R99 -/
  | wrEnable (v : Byte)
  /-- `RAISE lines`, R100 -/
  | raise (lines : BitVec 5)
  /-- `TICK n`, R110: any natural number of cycles; the word spells those below 2^28 (R76) -/
  | tick (cycles : Nat)
  /-- `PENDVEC`, R125 -/
  | pendvec
  /-- `DISPATCH i, p`, R127 -/
  | dispatch (src : Source) (pc : Addr)
  /-- `EN_IMM`, R128 -/
  | enImm
  /-- `DIS_IMM`, R129 -/
  | disImm
  /-- `EN_DLY`, R130 -/
  | enDly
  /-- `RESOLVE`, R131 -/
  | resolve
  /-- `SLEEP`, R140 -/
  | sleep
  /-- `STEP`, R143 -/
  | step
  /-- `RESET`, R150 -/
  | reset
  deriving DecidableEq, Repr, Inhabited

/-- The read of a register as an operation, the `RD` rows of the table of R74. -/
def Instr.rd : Reg → Instr
  | .divider => .rdDivider
  | .counter => .rdCounter
  | .reload => .rdReload
  | .control => .rdControl
  | .request => .rdRequest
  | .enable => .rdEnable

/-- The write of a register as an operation, the `WR` rows of the table of R74. -/
def Instr.wr : Reg → Byte → Instr
  | .divider, v => .wrDivider v
  | .counter, v => .wrCounter v
  | .reload, v => .wrReload v
  | .control, v => .wrControl v
  | .request, v => .wrRequest v
  | .enable, v => .wrEnable v

end Sys2Proof
end

