-- ==== Sys2Proof/WellFormed.lean ====
section
/-! DEFINITION. Which operations a command word can spell. Every bound but one is in the types of the operands; the cycle
count of `TICK` is a natural number of which the word carries 28 bits (R76, D9). -/

namespace Sys2Proof

/-- A command word can spell the operation. -/
def Instr.wellFormed : Instr → Bool
  | .rdDivider => true
  | .wrDivider _ => true
  | .rdCounter => true
  | .wrCounter _ => true
  | .rdReload => true
  | .wrReload _ => true
  | .rdControl => true
  | .wrControl _ => true
  | .rdRequest => true
  | .wrRequest _ => true
  | .rdEnable => true
  | .wrEnable _ => true
  | .raise _ => true
  | .tick n => decide (n < 2 ^ 28)
  | .pendvec => true
  | .dispatch _ _ => true
  | .enImm => true
  | .disImm => true
  | .enDly => true
  | .resolve => true
  | .sleep => true
  | .step => true
  | .reset => true

end Sys2Proof
end

