-- ==== Sys2Proof/Decode.lean ====
section
/-! DEFINITION. The decoder of R79, total on 32-bit words, rejecting by name (R80, R81), and the encoder written from the
same format tables (R71 to R77). -/

namespace Sys2Proof

/-- Field `op`, `W[31:28]` (R71). -/
def opField (w : Word) : BitVec 4 := w.extractLsb' 28 4

/-- Field `addr` of format B and field `pc` of format D, `W[27:12]` (R73, R77). -/
def addrField (w : Word) : Addr := w.extractLsb' 12 16

/-- Field `data` of format B, `W[11:4]` (R73). -/
def dataField (w : Word) : Byte := w.extractLsb' 4 8

/-- Field `lines` of format R, `W[8:4]` (R75). -/
def linesField (w : Word) : BitVec 5 := w.extractLsb' 4 5

/-- Field `src` of format D, `W[6:4]` (R77). -/
def srcField (w : Word) : BitVec 3 := w.extractLsb' 4 3

/-- `W[3:0]`, zero in formats B, R and D (R73, R75, R77). -/
def lowField (w : Word) : BitVec 4 := w.extractLsb' 0 4

/-- `W[27:9]`, zero in format R (R75). -/
def raiseZeroField (w : Word) : BitVec 19 := w.extractLsb' 9 19

/-- `W[11:7]`, zero in format D (R77). -/
def dispatchZeroField (w : Word) : BitVec 5 := w.extractLsb' 7 5

/-- `W[27:0]`: the field `cycles` of format T (R76), zero in format N (R72). -/
def cyclesField (w : Word) : BitVec 28 := w.extractLsb' 0 28

/-- The bus decode of R74: which register an address names. Where a configuration breaks R7's distinctness the first of
the table answers (log entry 13). -/
def Cfg.regAt (c : Cfg) (a : Addr) : Option Reg :=
  Reg.all.find? (fun r => decide (c.addr r = a))

/-- The source a `src` field names: 0 to 4; 5, 6 and 7 name none (R77). -/
def Source.ofField (f : BitVec 3) : Option Source :=
  Source.all.find? (fun i => decide (i.index = f.toNat))

/-- Format N (R72). -/
def decodeBare (w : Word) (i : Instr) : Except RefuseReason Instr :=
  if cyclesField w = 0 then .ok i else .error .illegal

/-- Format B, `RD` (R73, R74). -/
def decodeRd (c : Cfg) (w : Word) : Except RefuseReason Instr :=
  if lowField w = 0 ∧ dataField w = 0 then
    match c.regAt (addrField w) with
    | some r => .ok (.rd r)
    | none => .error .notMine
  else .error .illegal

/-- Format B, `WR` (R73, R74). -/
def decodeWr (c : Cfg) (w : Word) : Except RefuseReason Instr :=
  if lowField w = 0 then
    match c.regAt (addrField w) with
    | some r => .ok (.wr r (dataField w))
    | none => .error .notMine
  else .error .illegal

/-- Format R (R75). -/
def decodeRaise (w : Word) : Except RefuseReason Instr :=
  if lowField w = 0 ∧ raiseZeroField w = 0 then .ok (.raise (linesField w)) else .error .illegal

/-- Format D (R77). -/
def decodeDispatch (w : Word) : Except RefuseReason Instr :=
  if lowField w = 0 ∧ dispatchZeroField w = 0 then
    match Source.ofField (srcField w) with
    | some i => .ok (.dispatch i (addrField w))
    | none => .error .illegal
  else .error .illegal

/-- The decoder of R79: by `op` (the table of R71), then the checks of the format. -/
def decode (c : Cfg) (w : Word) : Except RefuseReason Instr :=
  match (opField w).toNat with
  | 0x0 => decodeRd c w
  | 0x1 => decodeWr c w
  | 0x2 => decodeRaise w
  | 0x3 => .ok (.tick (cyclesField w).toNat)
  | 0x4 => decodeBare w .pendvec
  | 0x5 => decodeDispatch w
  | 0x6 => decodeBare w .enImm
  | 0x7 => decodeBare w .disImm
  | 0x8 => decodeBare w .enDly
  | 0x9 => decodeBare w .resolve
  | 0xA => decodeBare w .sleep
  | 0xB => decodeBare w .step
  | 0xC => decodeBare w .reset
  | _ => .error .illegal

/-- The instruction the decoder reads from the word of a row of spec/opcode_table.json, with the default addresses the
table is computed with (R74). -/
def decodeTableWord (nbits w : Nat) : Option Instr :=
  match decode Cfg.default (BitVec.ofNat 32 (w % 2 ^ nbits)) with
  | .ok i => some i
  | .error _ => none

/-- A word whose bits from `low` up hold a field's value and whose other bits are 0. -/
def place (n : Nat) (v : BitVec n) (low : Nat) : Word := v.setWidth 32 <<< low

/-- A word of format N: `op` at `W[31:28]`, the rest 0 (R72). -/
def encodeBare (op : BitVec 4) : Word := place 4 op 28

/-- A word of format B: `op` at `W[31:28]`, `addr` at `W[27:12]`, `data` at `W[11:4]`, the rest 0 (R73). -/
def encodeBus (op : BitVec 4) (a : Addr) (v : Byte) : Word := place 4 op 28 ||| place 16 a 12 ||| place 8 v 4

/-- A word of format R: `op` at `W[31:28]`, `lines` at `W[8:4]`, the rest 0 (R75). -/
def encodeRaise (lines : BitVec 5) : Word := place 4 0x2 28 ||| place 5 lines 4

/-- A word of format T: `op` at `W[31:28]`, `cycles` at `W[27:0]` (R76). -/
def encodeTick (n : Nat) : Word := place 4 0x3 28 ||| place 28 (BitVec.ofNat 28 n) 0

/-- A word of format D: `op` at `W[31:28]`, `pc` at `W[27:12]`, `src` at `W[6:4]`, the rest 0 (R77). -/
def encodeDispatch (i : Source) (p : Addr) : Word :=
  place 4 0x5 28 ||| place 16 p 12 ||| place 3 (BitVec.ofNat 3 i.index) 4

/-- The word of an operation, from the format tables of R71 to R77. -/
def encode (c : Cfg) : Instr → Word
  | .rdDivider => encodeBus 0x0 c.addrDivider 0
  | .wrDivider v => encodeBus 0x1 c.addrDivider v
  | .rdCounter => encodeBus 0x0 c.addrCounter 0
  | .wrCounter v => encodeBus 0x1 c.addrCounter v
  | .rdReload => encodeBus 0x0 c.addrReload 0
  | .wrReload v => encodeBus 0x1 c.addrReload v
  | .rdControl => encodeBus 0x0 c.addrControl 0
  | .wrControl v => encodeBus 0x1 c.addrControl v
  | .rdRequest => encodeBus 0x0 c.addrRequest 0
  | .wrRequest v => encodeBus 0x1 c.addrRequest v
  | .rdEnable => encodeBus 0x0 c.addrEnable 0
  | .wrEnable v => encodeBus 0x1 c.addrEnable v
  | .raise lines => encodeRaise lines
  | .tick n => encodeTick n
  | .pendvec => encodeBare 0x4
  | .dispatch i p => encodeDispatch i p
  | .enImm => encodeBare 0x6
  | .disImm => encodeBare 0x7
  | .enDly => encodeBare 0x8
  | .resolve => encodeBare 0x9
  | .sleep => encodeBare 0xA
  | .step => encodeBare 0xB
  | .reset => encodeBare 0xC

end Sys2Proof
end

