-- ==== Sys2Proof/Machine/State.lean ====
section
/-! DEFINITION. The state of the machine as plain data: the eleven elements of R20, the environment of R11, the command
port and its result; the reasons a step can stop; the state after reset. -/

namespace Sys2Proof.Machine

/-- The environment's memory as address and byte pairs (R11); the canonical form is `Memory.wf` of Machine/Ops.lean. -/
abbrev Memory := List Host.Cell

/-- The eleven state elements of the block (R20). -/
structure Block where
  /-- the free-running counter, whose high byte is DIVIDER (R21) -/
  counter : BitVec 16
  /-- the sub-counter: cycles accumulated toward the next increment of `counterReg` (R22) -/
  sub : BitVec 10
  /-- the programmable counter, COUNTER (R23) -/
  counterReg : Byte
  /-- the reload value, RELOAD (R24) -/
  reloadReg : Byte
  /-- CONTROL: bit 2 enables the timer, bits 1:0 select the rate (R25) -/
  control : BitVec 3
  /-- the interrupt request mask, REQUEST, all 8 bits stored (R26, R28) -/
  request : Byte
  /-- the interrupt enable mask, ENABLE, all 8 bits stored (R27, R28) -/
  enable : Byte
  /-- Master Enable (R30) -/
  ime : Bool
  /-- Delayed-Enable Pending (R31) -/
  eiPending : Bool
  /-- the sleep state: `Halted` (R32) -/
  halted : Bool
  /-- the double-fetch latch (R33) -/
  bugLatch : Bool
  deriving DecidableEq, Repr, Inhabited

/-- The environment of R11. `pc`, `sp` and `mem` are R11's; the other fields hold, as plain data, the executor parameter
and what the block last told the executor. -/
structure Env where
  /-- the executor's program counter (R35) -/
  pc : Addr
  /-- the executor's stack pointer (R35) -/
  sp : Addr
  /-- the bytes at every address that is no register address (R11) -/
  mem : Memory
  /-- what `Env.execute` does in the coming calls, oldest first; past the list it is `Config.execute` (log entry 4) -/
  answers : List ExecAnswer
  /-- how many calls of `Env.execute` there have been: the counter the free value is applied to (log entry 6) -/
  calls : Nat
  /-- the `refetch` signal of the last call of `Env.execute` (R141, log entry 10) -/
  refetch : Bool
  /-- the bytes the reads of the last call returned to the executor, in order (R12, log entry 10) -/
  reads : List Byte
  deriving DecidableEq, Repr, Inhabited

/-- What an operation returns to whoever issued it (R12), or the reason a word was refused (R10). -/
inductive Result where
  /-- no result: every operation but those below -/
  | nothing
  /-- the byte a `RD` returns -/
  | byte (v : Byte)
  /-- the Boolean a `TICK` returns: an overflow occurred -/
  | overflow (ov : Bool)
  /-- the optional source a `PENDVEC` returns -/
  | source (v : Option Source)
  /-- the cycle cost a `DISPATCH` or a `STEP` returns -/
  | cost (n : Nat)
  /-- the word spelled no operation: `refuse(reason)` -/
  | refused (r : RefuseReason)
  deriving DecidableEq, Repr, Inhabited

/-- The machine: the configuration it was built with (R7, changed by no step), the block (R20), its environment (R11), the
commands waiting at the command port (R70, log entry 7) and the result of the last one (R12, log entry 9). -/
structure State where
  cfg : Cfg
  block : Block
  env : Env
  port : List Word
  result : Result
  deriving DecidableEq, Repr, Inhabited

/-- Reasons the machine stops with a fault. There are none: "The block raises no synchronous exception and has no cause
codes" (R160), and no state or operand reaches a fatal condition (R82). No step raises a fault (log entry 11). -/
inductive Fault where
  deriving DecidableEq, Repr

/-- Reasons an operation has no meaning in the model. A word that spells no operation is not among them: it is refused at
the port with the machine going on (R80, R81; `Result.refused`). -/
inductive Refusal where
  /-- the operation has no arm in `exec` yet; raised by `exec` alone; safe. No arm raises it. -/
  | notModelled (mnemonic : String)
  deriving DecidableEq, Repr

/-- Right after power-on (R40): the default `RESET_*` values of R7 in the seven registers, the four flags 0; the launch
environment and the port as log entries 1, 2, 4, 6, 7, 9 and 10 say. -/
def State.reset : State where
  cfg := Cfg.default
  block :=
    { counter := 0, sub := 0, counterReg := 0, reloadReg := 0, control := 0, request := 0, enable := 0,
      ime := false, eiPending := false, halted := false, bugLatch := false }
  env := { pc := 0, sp := 0, mem := [], answers := [], calls := 0, refetch := false, reads := [] }
  port := []
  result := .nothing

end Sys2Proof.Machine
end

