-- ==== Sys2Proof/Machine/Operands.lean ====
section
/-! DEFINITION. The operand forms: the read rule and the write rule of each of the six registers (R29), the request lines
of `RAISE` (R78), the two bytes of a 16-bit value (R8), and the tables indexed by an operand (`VECTOR`, R126). -/

namespace Sys2Proof.Machine

/-- `hi(p)` (R8). -/
def hi (p : Addr) : Byte := p.extractLsb' 8 8

/-- `lo(p)` (R8). -/
def lo (p : Addr) : Byte := p.extractLsb' 0 8

/-- The read rule of DIVIDER: the high byte of `counter` (R114). -/
def readDivider (b : Block) : Byte := hi b.counter

/-- The read rule of COUNTER (R90). -/
def readCounter (b : Block) : Byte := b.counterReg

/-- The read rule of RELOAD (R92). -/
def readReload (b : Block) : Byte := b.reloadReg

/-- The read rule of CONTROL: `{CONTROL_READ_HIGH, control}` (R94). -/
def readControl (c : Cfg) (b : Block) : Byte := c.controlReadHigh ++ b.control

/-- A stored interrupt mask as a read returns it (R28): one parameter for both masks. -/
def maskAsRead (c : Cfg) (stored : Byte) : Byte := if c.highBitsForceOne then stored ||| 0xE0 else stored

/-- The read rule of REQUEST (R96). -/
def readRequest (c : Cfg) (b : Block) : Byte := maskAsRead c b.request

/-- The read rule of ENABLE (R98). -/
def readEnable (c : Cfg) (b : Block) : Byte := maskAsRead c b.enable

/-- The write rule of DIVIDER: the value is ignored, `counter` and `sub` are zeroed (R115). -/
def writeDivider (_v : Byte) (b : Block) : Block := { b with counter := 0, sub := 0 }

/-- The write rule of COUNTER (R91). -/
def writeCounter (v : Byte) (b : Block) : Block := { b with counterReg := v }

/-- The write rule of RELOAD (R93). -/
def writeReload (v : Byte) (b : Block) : Block := { b with reloadReg := v }

/-- The write rule of CONTROL: only `v[2:0]` is kept (R95). -/
def writeControl (v : Byte) (b : Block) : Block := { b with control := v.extractLsb' 0 3 }

/-- The write rule of REQUEST: a full overwrite (R97). -/
def writeRequest (v : Byte) (b : Block) : Block := { b with request := v }

/-- The write rule of ENABLE (R99). -/
def writeEnable (v : Byte) (b : Block) : Block := { b with enable := v }

/-- `x[r]`: what the read rule of register `r` returns (R9). -/
def readReg (c : Cfg) (r : Reg) (b : Block) : Byte :=
  match r with
  | .divider => readDivider b
  | .counter => readCounter b
  | .reload => readReload b
  | .control => readControl c b
  | .request => readRequest c b
  | .enable => readEnable c b

/-- `x[r] <- v`: the effect of the write rule of register `r` (R9). -/
def writeReg (r : Reg) (v : Byte) (b : Block) : Block :=
  match r with
  | .divider => writeDivider v b
  | .counter => writeCounter v b
  | .reload => writeReload v b
  | .control => writeControl v b
  | .request => writeRequest v b
  | .enable => writeEnable v b

/-- `zext_8(lines)` (R78): the request lines of `RAISE` over the bits of `request`. -/
def linesMask (lines : BitVec 5) : Byte := lines.setWidth 8

/-- `VECTOR(i)`, the table of R126 and R161. -/
def vector : Source → Addr
  | .displayVBlank => 0x0040
  | .displayStatus => 0x0048
  | .timerOverflow => 0x0050
  | .serialComplete => 0x0058
  | .inputEdge => 0x0060

end Sys2Proof.Machine
end

