-- ==== Sys2Proof/Machine/Flags.lean ====
section
/-! DEFINITION. The flags: which requests are pending (R13, R125), the OR into `request` (R64), and what sets and clears
`ime`, `ei_pending`, `halted` and `bug_latch` (R30 to R33). -/

namespace Sys2Proof.Machine

/-- `pend5 = request & enable & 0x1F`: pending and enabled, whatever `ime` is (R13, R143). -/
def pend5 (b : Block) : Byte := b.request &&& b.enable &&& 0x1F

/-- The priority evaluation of R125: the pending enabled source of least index, none while `ime` is 0. -/
def pendingSource (b : Block) : Option Source :=
  if b.ime then Source.all.find? (fun i => (pend5 b).getLsbD i.index) else none

/-- `request <- request | bits` (R64): sets bits, never clears one. -/
def orRequest (bits : Byte) (b : Block) : Block := { b with request := b.request ||| bits }

/-- The fold of a tick's overflow into the timer's request bit, bit 2 (R143). -/
def foldOverflow (ov : Bool) (b : Block) : Block := if ov then orRequest 0x04 b else b

/-- `ime <- 1; ei_pending <- 0` (R128). -/
def enableNow (b : Block) : Block := { b with ime := true, eiPending := false }

/-- `ime <- 0`, nothing else (R129). -/
def disableNow (b : Block) : Block := { b with ime := false }

/-- `ei_pending <- 1`, nothing else (R130). -/
def enableLater (b : Block) : Block := { b with eiPending := true }

/-- `if ei_pending = 1 then ime <- 1; ei_pending <- 0` (R131). -/
def resolveEnable (b : Block) : Block :=
  if b.eiPending then { b with ime := true, eiPending := false } else b

/-- Enter the sleep state (R140); the double-fetch latch is armed under R141's condition, at this instant. -/
def enterSleep (c : Cfg) (b : Block) : Block :=
  if c.haltBugEnable = true ∧ b.ime = false ∧ pend5 b = 0 then { b with halted := true, bugLatch := true }
  else { b with halted := true }

end Sys2Proof.Machine
end

