-- ==== Sys2Proof/Machine/Ops.lean ====
section
/-! DEFINITION. The shared operations: memory in canonical form, `MemRead` and `MemWrite` (R51, R52), `Env.push` (R11), the
dispatch to a handler, which is this hardware's taking of an exception (R127, R166), and the command port (R70, R10).
The block has no operation of return: it takes part in one only by `enableNow` of Flags.lean (R167). -/

namespace Sys2Proof.Machine

/-- What an address of `Env.mem` that nothing has written reads as. DESIGN CHOICE (log entry 1), unsafe. -/
def Memory.unlisted : Byte := 0x00

/-- The canonical form: addresses strictly rising and below 2^16, no entry equal to what an unlisted address reads as. -/
abbrev Memory.wf (m : Memory) : Prop :=
  m.Pairwise (fun x y => x.1 < y.1) ∧ ∀ x ∈ m, x.1 < 65536 ∧ x.2 ≠ Memory.unlisted

/-- The byte at an address. -/
def Memory.get : Memory → Nat → Byte
  | [], _ => Memory.unlisted
  | (k, v) :: rest, a => if k = a then v else Memory.get rest a

/-- The memory without any entry for an address. -/
def Memory.drop : Memory → Nat → Memory
  | [], _ => []
  | (k, v) :: rest, a => if k = a then rest else (k, v) :: Memory.drop rest a

/-- The memory with a byte listed at an address, the addresses kept rising. -/
def Memory.put : Memory → Nat → Byte → Memory
  | [], a, x => [(a, x)]
  | (k, v) :: rest, a, x =>
    if a < k then (a, x) :: (k, v) :: rest
    else if k = a then (a, x) :: rest
    else (k, v) :: Memory.put rest a x

/-- A write of one byte, keeping the canonical form: writing what an unlisted address reads as removes the entry. -/
def Memory.set (m : Memory) (a : Nat) (x : Byte) : Memory :=
  if x = Memory.unlisted then m.drop a else m.put a x

/-- The state with another block. -/
def State.withBlock (s : State) (b : Block) : State := { s with block := b }

/-- The state with another environment. -/
def State.withEnv (s : State) (e : Env) : State := { s with env := e }

/-- The state with another result at the command port. -/
def State.withResult (s : State) (r : Result) : State := { s with result := r }

/-- The state with other commands waiting at the command port. -/
def State.withPort (s : State) (p : List Word) : State := { s with port := p }

/-- `MemRead(addr, 1)` (R51). -/
def memRead (a : Addr) (s : State) : Byte :=
  match s.cfg.regAt a with
  | some r => readReg s.cfg r s.block
  | none => s.env.mem.get a.toNat

/-- `MemWrite(addr, 1, v)` (R52). -/
def memWrite (a : Addr) (v : Byte) (s : State) : State :=
  match s.cfg.regAt a with
  | some r => s.withBlock (writeReg r v s.block)
  | none => s.withEnv { s.env with mem := s.env.mem.set a.toNat v }

/-- `Env.push(b)`: decrement the stack pointer modulo 2^16, then write the byte (R11). -/
def push (v : Byte) (s : State) : State :=
  memWrite (s.env.sp - 1) v (s.withEnv { s.env with sp := s.env.sp - 1 })

/-- `DISPATCH_COST` (R6). -/
def dispatchCost : Nat := 20

/-- Enter the handler of a source with a return address (R127): clear `ime`, push the high byte, push the low byte, go to
the vector. -/
def dispatchTo (i : Source) (p : Addr) (s : State) : State :=
  let pushed := push (lo p) (push (hi p) (s.withBlock (disableNow s.block)))
  pushed.withEnv { pushed.env with pc := vector i }

/-- An operation's end: the block it leaves and the result it returns (R12). -/
def finish (b : Block) (r : Result) (s : State) : State := (s.withBlock b).withResult r

/-- `refuse(reason)`: no change of state, the reason reported to the caller (R10). -/
def refuse (r : RefuseReason) (s : State) : State := s.withResult (.refused r)

/-- The oldest command word waiting at the port, and the state with it taken from there (R70). -/
def fetch (s : State) : Option (Word × State) :=
  match s.port with
  | [] => none
  | w :: rest => some (w, s.withPort rest)

/-- The word of an instruction whose bits are numbered as spec/opcode_table.json numbers them: one 32-bit word. -/
def tableWord (nbits w : Nat) : Word := BitVec.ofNat 32 (w % 2 ^ nbits)

end Sys2Proof.Machine
end

