-- ==== Sys2Proof/Machine/RegisterBank.lean ====
section
/-! DEFINITION. The operations of the Register Bank (40_register_bank.md): the ten bus accesses that are not to DIVIDER,
and `RAISE`. -/

namespace Sys2Proof.Machine

/-- `RD COUNTER` (R90). -/
def execRdCounter (s : State) : Host.Outcome State Fault Refusal :=
  .next (finish s.block (.byte (readCounter s.block)) s)

/-- `WR COUNTER, v` (R91). -/
def execWrCounter (v : Byte) (s : State) : Host.Outcome State Fault Refusal :=
  .next (finish (writeCounter v s.block) .nothing s)

/-- `RD RELOAD` (R92). -/
def execRdReload (s : State) : Host.Outcome State Fault Refusal :=
  .next (finish s.block (.byte (readReload s.block)) s)

/-- `WR RELOAD, v` (R93). -/
def execWrReload (v : Byte) (s : State) : Host.Outcome State Fault Refusal :=
  .next (finish (writeReload v s.block) .nothing s)

/-- `RD CONTROL` (R94). -/
def execRdControl (s : State) : Host.Outcome State Fault Refusal :=
  .next (finish s.block (.byte (readControl s.cfg s.block)) s)

/-- `WR CONTROL, v` (R95). -/
def execWrControl (v : Byte) (s : State) : Host.Outcome State Fault Refusal :=
  .next (finish (writeControl v s.block) .nothing s)

/-- `RD REQUEST` (R96). -/
def execRdRequest (s : State) : Host.Outcome State Fault Refusal :=
  .next (finish s.block (.byte (readRequest s.cfg s.block)) s)

/-- `WR REQUEST, v` (R97). -/
def execWrRequest (v : Byte) (s : State) : Host.Outcome State Fault Refusal :=
  .next (finish (writeRequest v s.block) .nothing s)

/-- `RD ENABLE` (R98). -/
def execRdEnable (s : State) : Host.Outcome State Fault Refusal :=
  .next (finish s.block (.byte (readEnable s.cfg s.block)) s)

/-- `WR ENABLE, v` (R99). -/
def execWrEnable (v : Byte) (s : State) : Host.Outcome State Fault Refusal :=
  .next (finish (writeEnable v s.block) .nothing s)

/-- `RAISE lines`: `request <- request | zext_8(lines)` (R100). -/
def execRaise (lines : BitVec 5) (s : State) : Host.Outcome State Fault Refusal :=
  .next (finish (orRequest (linesMask lines) s.block) .nothing s)

end Sys2Proof.Machine
end

