-- ==== Sys2Proof/Machine/InterruptController.lean ====
section
/-! DEFINITION. The operations of the InterruptController (42_interrupt_controller.md). -/

namespace Sys2Proof.Machine

/-- `PENDVEC` (R125). -/
def execPendvec (s : State) : Host.Outcome State Fault Refusal :=
  .next (finish s.block (.source (pendingSource s.block)) s)

/-- `DISPATCH i, p` (R127): unconditional; the check is `PENDVEC`. -/
def execDispatch (i : Source) (p : Addr) (s : State) : Host.Outcome State Fault Refusal :=
  .next ((dispatchTo i p s).withResult (.cost dispatchCost))

/-- `EN_IMM` (R128). -/
def execEnImm (s : State) : Host.Outcome State Fault Refusal :=
  .next (finish (enableNow s.block) .nothing s)

/-- `DIS_IMM` (R129). -/
def execDisImm (s : State) : Host.Outcome State Fault Refusal :=
  .next (finish (disableNow s.block) .nothing s)

/-- `EN_DLY` (R130). -/
def execEnDly (s : State) : Host.Outcome State Fault Refusal :=
  .next (finish (enableLater s.block) .nothing s)

/-- `RESOLVE` (R131). -/
def execResolve (s : State) : Host.Outcome State Fault Refusal :=
  .next (finish (resolveEnable s.block) .nothing s)

end Sys2Proof.Machine
end

