-- ==== Sys2Proof/Machine/TimerUnit.lean ====
section
/-! DEFINITION. The operations of the TimerUnit (41_timer_unit.md): `TICK`, `RD DIVIDER`, `WR DIVIDER`. -/

namespace Sys2Proof.Machine

/-- `RATE`: cycles per increment of `counterReg`, by the frequency selector `control[1:0]` (R111). -/
def rate (sel : BitVec 2) : Nat :=
  if sel = 0b00 then 1024 else if sel = 0b01 then 16 else if sel = 0b10 then 64 else 256

/-- The frequency selector, `control[1:0]` (R25). -/
def selector (b : Block) : BitVec 2 := b.control.extractLsb' 0 2

/-- The timer enable bit, `control[2]` (R25). -/
def timerEnabled (b : Block) : Bool := b.control.getLsbD 2

/-- What the loop of R110 carries: the cycles still to account for, the programmable counter, the overflow seen. -/
structure TickLoop where
  acc : Nat
  counterReg : Byte
  ov : Bool
  deriving DecidableEq, Repr

/-- One increment: the body of the loop of R110. -/
def increment (per : Nat) (reload : Byte) (l : TickLoop) : TickLoop :=
  if l.counterReg = 0xFF then { acc := l.acc - per, counterReg := reload, ov := true }
  else { l with acc := l.acc - per, counterReg := l.counterReg + 1 }

/-- `while acc >= rate`: the loop of R110. The fuel bounds the number of increments; `acc` of it always suffices, since
each increment takes at least 16 from `acc` (R112). -/
def tickLoop (per : Nat) (reload : Byte) : Nat → TickLoop → TickLoop
  | 0, l => l
  | fuel + 1, l => if per ≤ l.acc then tickLoop per reload fuel (increment per reload l) else l

/-- The loop of R110 from its start: `sub + n` cycles to account for. -/
def tickRun (n : Nat) (b : Block) : TickLoop :=
  tickLoop (rate (selector b)) b.reloadReg (b.sub.toNat + n)
    { acc := b.sub.toNat + n, counterReg := b.counterReg, ov := false }

/-- `TICK(n)` (R110): the block it leaves. `counter` advances always, the programmable counter while enabled. -/
def tick (n : Nat) (b : Block) : Block :=
  if timerEnabled b then
    { b with counter := b.counter + BitVec.ofNat 16 n, sub := BitVec.ofNat 10 (tickRun n b).acc,
             counterReg := (tickRun n b).counterReg }
  else { b with counter := b.counter + BitVec.ofNat 16 n }

/-- `TICK(n)` (R110): whether at least one overflow occurred. -/
def tickOverflow (n : Nat) (b : Block) : Bool := if timerEnabled b then (tickRun n b).ov else false

/-- `TICK n` (R110). The fold of the overflow into `request` is the scheduler's, not this operation's. -/
def execTick (n : Nat) (s : State) : Host.Outcome State Fault Refusal :=
  .next (finish (tick n s.block) (.overflow (tickOverflow n s.block)) s)

/-- `RD DIVIDER` (R114). -/
def execRdDivider (s : State) : Host.Outcome State Fault Refusal :=
  .next (finish s.block (.byte (readDivider s.block)) s)

/-- `WR DIVIDER, v` (R115). -/
def execWrDivider (v : Byte) (s : State) : Host.Outcome State Fault Refusal :=
  .next (finish (writeDivider v s.block) .nothing s)

end Sys2Proof.Machine
end

