-- ==== Sys2Proof/Machine/StepScheduler.lean ====
section
/-! DEFINITION. The operations of the StepScheduler (43_step_scheduler.md): `SLEEP`, `STEP` with the call of the
instruction executor (R144), `RESET`. -/

namespace Sys2Proof.Machine

/-- `WAKE_COST` (R6). -/
def wakeCost : Nat := 4

/-- One action of the executor, applied to the state at once (R144). -/
def applyAction (s : State) : ExecAction → State
  | .read a => s.withEnv { s.env with reads := s.env.reads ++ [memRead a s] }
  | .write a v => memWrite a v s
  | .enImm => s.withBlock (enableNow s.block)
  | .disImm => s.withBlock (disableNow s.block)
  | .enDly => s.withBlock (enableLater s.block)
  | .sleep => s.withBlock (enterSleep s.cfg s.block)

/-- What the executor can see when it is called (R11, R141). -/
def execView (refetch : Bool) (s : State) : ExecView where
  pc := s.env.pc
  sp := s.env.sp
  mem := s.env.mem
  divider := readReg s.cfg .divider s.block
  counter := readReg s.cfg .counter s.block
  reload := readReg s.cfg .reload s.block
  control := readReg s.cfg .control s.block
  request := readReg s.cfg .request s.block
  enable := readReg s.cfg .enable s.block
  refetch := refetch

/-- What the executor does in this call (R11): the launch state's next answer, or the free value (log entry 4). -/
def nextAnswer (refetch : Bool) (s : State) : ExecAnswer :=
  match s.env.answers with
  | a :: _ => a
  | [] => Config.execute s.cfg s.env.calls (execView refetch s)

/-- The environment as the executor is called: the call counted, its answer taken, `refetch` handed over. -/
def callExecutor (refetch : Bool) (s : State) : State :=
  s.withEnv { s.env with answers := s.env.answers.tail, calls := s.env.calls + 1, refetch := refetch, reads := [] }

/-- One run of the executor (R11, R144): its actions in the order issued, then its `pc` and `sp`. -/
def runAnswer (a : ExecAnswer) (s : State) : State :=
  let done := a.actions.foldl applyAction s
  done.withEnv { done.env with pc := a.pc, sp := a.sp }

/-- `Env.execute(refetch)` (R11): the state it leaves; its cost is `(nextAnswer refetch s).cost`. -/
def execute (refetch : Bool) (s : State) : State := runAnswer (nextAnswer refetch s) (callExecutor refetch s)

/-- Step 4 of R143: tick the timer by the base cost and fold an overflow into `request`. -/
def advanceTimer (n : Nat) (s : State) : State :=
  s.withBlock (foldOverflow (tickOverflow n s.block) (tick n s.block))

/-- Step 5 of R143: resolve the delayed enable if it was pending on entry. -/
def resolveArmed (armed : Bool) (s : State) : State :=
  if armed then s.withBlock (resolveEnable s.block) else s

/-- Step 6 of R143: evaluate, dispatch if there is a source, return the total cost. -/
def evaluate (base : Nat) (s : State) : State :=
  match pendingSource s.block with
  | some i => (dispatchTo i s.env.pc s).withResult (.cost (base + dispatchCost))
  | none => s.withResult (.cost base)

/-- Steps 4 to 6 of R143. -/
def concludeStep (armed : Bool) (base : Nat) (s : State) : State :=
  evaluate base (resolveArmed armed (advanceTimer base s))

/-- The idle step (R148): the timer is advanced, nothing else. -/
def idleStep (s : State) : State := (advanceTimer s.cfg.idleCost s).withResult (.cost s.cfg.idleCost)

/-- The wake step (R149): no instruction is executed. -/
def wakeStep (s : State) : State :=
  concludeStep s.block.eiPending wakeCost (s.withBlock { s.block with halted := false })

/-- The running step (R144): exactly one instruction, handed the latch as `refetch`. -/
def runningStep (s : State) : State :=
  let cleared := s.withBlock { s.block with bugLatch := false }
  concludeStep s.block.eiPending (nextAnswer s.block.bugLatch cleared).cost (execute s.block.bugLatch cleared)

/-- One step of emulated time (R143). -/
def schedulerStep (s : State) : State :=
  if s.block.halted then (if pend5 s.block = 0 then idleStep s else wakeStep s) else runningStep s

/-- The reset values of the block (R150, R40). -/
def resetBlock (c : Cfg) : Block where
  counter := c.resetCounter
  sub := c.resetSub
  counterReg := c.resetCounterReg
  reloadReg := c.resetReloadReg
  control := c.resetControl
  request := c.resetRequest
  enable := c.resetEnable
  ime := false
  eiPending := false
  halted := false
  bugLatch := false

/-- `SLEEP` (R140). -/
def execSleep (s : State) : Host.Outcome State Fault Refusal :=
  .next (finish (enterSleep s.cfg s.block) .nothing s)

/-- `STEP` (R143). -/
def execStep (s : State) : Host.Outcome State Fault Refusal :=
  .next (schedulerStep s)

/-- `RESET` (R150): the whole block; `Env` is not touched. -/
def execReset (s : State) : Host.Outcome State Fault Refusal :=
  .next (finish (resetBlock s.cfg) .nothing s)

end Sys2Proof.Machine
end

