-- ==== Sys2Proof/Machine/Dispatch.lean ====
section
/-! DEFINITION. The meaning of every operation: one arm per constructor of `Instr`. -/

namespace Sys2Proof.Machine

/-- What an operation does (one atomic transition, R58). -/
def exec (i : Instr) (s : State) : Host.Outcome State Fault Refusal :=
  match i with
  | .rdDivider => Sys2Proof.Machine.execRdDivider s
  | .wrDivider v => Sys2Proof.Machine.execWrDivider v s
  | .rdCounter => Sys2Proof.Machine.execRdCounter s
  | .wrCounter v => Sys2Proof.Machine.execWrCounter v s
  | .rdReload => Sys2Proof.Machine.execRdReload s
  | .wrReload v => Sys2Proof.Machine.execWrReload v s
  | .rdControl => Sys2Proof.Machine.execRdControl s
  | .wrControl v => Sys2Proof.Machine.execWrControl v s
  | .rdRequest => Sys2Proof.Machine.execRdRequest s
  | .wrRequest v => Sys2Proof.Machine.execWrRequest v s
  | .rdEnable => Sys2Proof.Machine.execRdEnable s
  | .wrEnable v => Sys2Proof.Machine.execWrEnable v s
  | .raise lines => Sys2Proof.Machine.execRaise lines s
  | .tick n => Sys2Proof.Machine.execTick n s
  | .pendvec => Sys2Proof.Machine.execPendvec s
  | .dispatch src p => Sys2Proof.Machine.execDispatch src p s
  | .enImm => Sys2Proof.Machine.execEnImm s
  | .disImm => Sys2Proof.Machine.execDisImm s
  | .enDly => Sys2Proof.Machine.execEnDly s
  | .resolve => Sys2Proof.Machine.execResolve s
  | .sleep => Sys2Proof.Machine.execSleep s
  | .step => Sys2Proof.Machine.execStep s
  | .reset => Sys2Proof.Machine.execReset s

end Sys2Proof.Machine
end

