-- ==== Sys2Proof/Machine/Step.lean ====
section
/-! DEFINITION. One step of the machine: the oldest command at the port is decoded and performed (R70, R79). -/

namespace Sys2Proof.Machine

/-- One command: a word that spells an operation runs it; a word that spells none is refused with no change of state
(R80, R81); with no command waiting nothing happens (log entry 7). -/
def step (s : State) : Host.Outcome State Fault Refusal :=
  match fetch s with
  | none => .next s
  | some (w, t) =>
    match decode t.cfg w with
    | .ok i => exec i t
    | .error r => .next (refuse r t)

/-- The state with an instruction put before the commands waiting at the port, so that the very next step runs it (log entry 7). -/
def State.withFetchWord (s : State) (nbits w : Nat) : State := s.withPort (tableWord nbits w :: s.port)

end Sys2Proof.Machine
end

