-- ==== Sys2Proof/Safety.lean ====
section
/-! DEFINITION. What holds of every state a run can reach: R37's invariants that a type does not already hold, the canonical
form of memory, and that the environment's memory lists no register address (R11). -/

namespace Sys2Proof.Machine

/-- R37: `bug_latch = 1` implies `HALT_BUG_ENABLE`. -/
def latchAllowed (s : State) : Prop := s.block.bugLatch = true → s.cfg.haltBugEnable = true

/-- R11: `Env.mem` holds "every address that is not one of the six register addresses". -/
def memoryApart (s : State) : Prop := ∀ x ∈ s.env.mem, ∀ r : Reg, x.1 ≠ (s.cfg.addr r).toNat

/-- The invariant of the machine. -/
structure Inv (s : State) : Prop where
  latch : latchAllowed s
  form : s.env.mem.wf
  apart : memoryApart s

end Sys2Proof.Machine
end

