-- ==== Sys2Proof/Certificates/Slice0/Obligations.lean ====
section
/-! DEFINITION. The statements for the provers, from the numbered rules of spec/. Every statement about a state holds for
every configuration and every environment, since both are fields of State. -/

open Sys2Proof Sys2Proof.Machine

/-! ## The command port and the encoding -/

/-- R70, R79: when the oldest word at the port decodes to an operation, a step performs that operation, with the word taken
from the port (that the port is a queue is the model's choice, log entry 7). -/
def Obligations.StepRunsDecodedCommand : Prop :=
  ∀ (s : State) (w : Word) (rest : List Word) (i : Instr),
    s.port = w :: rest → decode s.cfg w = .ok i → step s = exec i { s with port := rest }

/-- The words of 95_test_vectors.md V1 decode as its table says, with the default addresses. -/
def Obligations.SpecWordsDecode : Prop :=
  decode Cfg.default 0x0FF04000 = .ok .rdDivider ∧ decode Cfg.default 0x0FF05000 = .ok .rdCounter ∧
  decode Cfg.default 0x0FF06000 = .ok .rdReload ∧ decode Cfg.default 0x0FF07000 = .ok .rdControl ∧
  decode Cfg.default 0x0FF0F000 = .ok .rdRequest ∧ decode Cfg.default 0x0FFFF000 = .ok .rdEnable ∧
  decode Cfg.default 0x1FF07FD0 = .ok (.wrControl 0xFD) ∧ decode Cfg.default 0x200001F0 = .ok (.raise 0b11111) ∧
  decode Cfg.default 0x3FFFFFFF = .ok (.tick 268435455) ∧ decode Cfg.default 0x40000000 = .ok .pendvec ∧
  decode Cfg.default 0x5FFFF040 = .ok (.dispatch .inputEdge 0xFFFF) ∧
  decode Cfg.default 0x5ABCD000 = .ok (.dispatch .displayVBlank 0xABCD) ∧
  decode Cfg.default 0xB0000000 = .ok .step ∧ decode Cfg.default 0x0FF04010 = .error .illegal ∧
  decode Cfg.default 0x50000050 = .error .illegal ∧ decode Cfg.default 0xD0000000 = .error .illegal ∧
  decode Cfg.default 0x1FF08120 = .error .notMine

/-- R71 to R78: the word of every operation, field by field from bit 31 down. -/
def Obligations.WordsFollowFormatTables : Prop :=
  ∀ (c : Cfg) (v : Byte) (lines : BitVec 5) (n : Nat) (p : Addr),
    (∀ r : Reg, encode c (.rd r) = 0x0#4 ++ c.addr r ++ 0x00#8 ++ 0x0#4) ∧
    (∀ r : Reg, encode c (.wr r v) = 0x1#4 ++ c.addr r ++ v ++ 0x0#4) ∧
    encode c (.raise lines) = 0x2#4 ++ 0x0#19 ++ lines ++ 0x0#4 ∧
    encode c (.tick n) = 0x3#4 ++ BitVec.ofNat 28 n ∧
    encode c .pendvec = 0x4#4 ++ 0x0#28 ∧
    encode c (.dispatch .displayVBlank p) = 0x5#4 ++ p ++ 0x0#5 ++ 0x0#3 ++ 0x0#4 ∧
    encode c (.dispatch .displayStatus p) = 0x5#4 ++ p ++ 0x0#5 ++ 0x1#3 ++ 0x0#4 ∧
    encode c (.dispatch .timerOverflow p) = 0x5#4 ++ p ++ 0x0#5 ++ 0x2#3 ++ 0x0#4 ∧
    encode c (.dispatch .serialComplete p) = 0x5#4 ++ p ++ 0x0#5 ++ 0x3#3 ++ 0x0#4 ∧
    encode c (.dispatch .inputEdge p) = 0x5#4 ++ p ++ 0x0#5 ++ 0x4#3 ++ 0x0#4 ∧
    encode c .enImm = 0x6#4 ++ 0x0#28 ∧ encode c .disImm = 0x7#4 ++ 0x0#28 ∧
    encode c .enDly = 0x8#4 ++ 0x0#28 ∧ encode c .resolve = 0x9#4 ++ 0x0#28 ∧
    encode c .sleep = 0xA#4 ++ 0x0#28 ∧ encode c .step = 0xB#4 ++ 0x0#28 ∧ encode c .reset = 0xC#4 ++ 0x0#28

/-- R79, "encode-then-decode ... the identity": for every operation a word can spell, under every configuration of the
block. -/
def Obligations.DecodeInvertsEncode : Prop :=
  ∀ (c : Cfg) (i : Instr), c.wf → i.wellFormed = true → decode c (encode c i) = .ok i

/-- R79, "decode-then-encode ... the identity on legal words": no bit of a legal word is dropped, so two different words
never spell the same operation. -/
def Obligations.EncodeInvertsDecode : Prop :=
  ∀ (c : Cfg) (w : Word) (i : Instr), decode c w = .ok i → i.wellFormed = true ∧ encode c i = w

/-- R80: exactly which words are illegal, and that performing one changes nothing of the block, the environment and the
configuration and reports the reason. That the machine goes on with the next command is log entry 8. -/
def Obligations.IllegalWordsRefused : Prop :=
  ∀ (s : State) (w : Word) (rest : List Word), s.port = w :: rest →
    (decode s.cfg w = .error .illegal ↔
      (w.extractLsb' 28 4 = 0xD ∨ w.extractLsb' 28 4 = 0xE ∨ w.extractLsb' 28 4 = 0xF) ∨
      ((w.extractLsb' 28 4 = 0x4 ∨ (0x6 ≤ w.extractLsb' 28 4 ∧ w.extractLsb' 28 4 ≤ 0xC)) ∧ w.extractLsb' 0 28 ≠ 0) ∨
      ((w.extractLsb' 28 4 = 0x0 ∨ w.extractLsb' 28 4 = 0x1 ∨ w.extractLsb' 28 4 = 0x2 ∨ w.extractLsb' 28 4 = 0x5) ∧
        w.extractLsb' 0 4 ≠ 0) ∨
      (w.extractLsb' 28 4 = 0x0 ∧ w.extractLsb' 4 8 ≠ 0) ∨
      (w.extractLsb' 28 4 = 0x2 ∧ w.extractLsb' 9 19 ≠ 0) ∨
      (w.extractLsb' 28 4 = 0x5 ∧ (w.extractLsb' 7 5 ≠ 0 ∨ 4 < (w.extractLsb' 4 3).toNat))) ∧
    (decode s.cfg w = .error .illegal →
      ∃ t, step s = .next t ∧ t.block = s.block ∧ t.env = s.env ∧ t.cfg = s.cfg ∧ t.result = .refused .illegal)

/-- R81, R53: a well-formed bus word whose address is none of the six registers is not an operation of the block; performing
it changes nothing and reports the reason. That the machine goes on with the next command is log entry 8. -/
def Obligations.ForeignBusAccessNotMine : Prop :=
  ∀ (s : State) (w : Word) (rest : List Word), s.port = w :: rest →
    (decode s.cfg w = .error .notMine ↔
      ((w.extractLsb' 28 4 = 0x0 ∧ w.extractLsb' 4 8 = 0) ∨ w.extractLsb' 28 4 = 0x1) ∧ w.extractLsb' 0 4 = 0 ∧
        ∀ r : Reg, s.cfg.addr r ≠ w.extractLsb' 12 16) ∧
    (decode s.cfg w = .error .notMine →
      ∃ t, step s = .next t ∧ t.block = s.block ∧ t.env = s.env ∧ t.cfg = s.cfg ∧ t.result = .refused .notMine)

/-! ## The Register Bank -/

/-- R114, R90, R92, R94, R96, R98: what each of the six reads returns; nothing else changes. -/
def Obligations.RegisterReadsReturnRegisters : Prop :=
  ∀ s : State,
    exec .rdDivider s = .next { s with result := .byte (s.block.counter.extractLsb' 8 8) } ∧
    exec .rdCounter s = .next { s with result := .byte s.block.counterReg } ∧
    exec .rdReload s = .next { s with result := .byte s.block.reloadReg } ∧
    exec .rdControl s = .next { s with result := .byte (s.cfg.controlReadHigh ++ s.block.control) } ∧
    exec .rdRequest s = .next { s with
      result := .byte (if s.cfg.highBitsForceOne then s.block.request ||| 0xE0 else s.block.request) } ∧
    exec .rdEnable s = .next { s with
      result := .byte (if s.cfg.highBitsForceOne then s.block.enable ||| 0xE0 else s.block.enable) }

/-- R115, R91, R93, R95, R97, R99: what each of the six writes stores; nothing else changes. -/
def Obligations.RegisterWritesStoreAndNothingElse : Prop :=
  ∀ (s : State) (v : Byte),
    exec (.wrDivider v) s = .next { s with block := { s.block with counter := 0, sub := 0 }, result := .nothing } ∧
    exec (.wrCounter v) s = .next { s with block := { s.block with counterReg := v }, result := .nothing } ∧
    exec (.wrReload v) s = .next { s with block := { s.block with reloadReg := v }, result := .nothing } ∧
    exec (.wrControl v) s = .next { s with
      block := { s.block with control := v.extractLsb' 0 3 }, result := .nothing } ∧
    exec (.wrRequest v) s = .next { s with block := { s.block with request := v }, result := .nothing } ∧
    exec (.wrEnable v) s = .next { s with block := { s.block with enable := v }, result := .nothing }

/-- R101: a read of a register after a write of it returns what the bits implemented there keep of the written byte, and no
write of one register changes what a read of another returns. -/
def Obligations.ReadAfterWriteOfTheBank : Prop :=
  ∀ (s : State) (r r' : Reg) (v : Byte),
    ∃ t u before, exec (.wr r v) s = .next t ∧ exec (.rd r') t = .next u ∧ exec (.rd r') s = .next before ∧
      (r' ≠ r → u.result = before.result) ∧
      (r' = r → u.result = .byte (match r with
        | .divider => 0x00
        | .counter => v
        | .reload => v
        | .control => s.cfg.controlReadHigh ++ v.extractLsb' 0 3
        | .request => if s.cfg.highBitsForceOne then v ||| 0xE0 else v
        | .enable => if s.cfg.highBitsForceOne then v ||| 0xE0 else v))

/-- R100, R62: the word of `RAISE`; it ORs its lines into bits 4:0 of `request`, bits 7:5 keep their value, no bit is
cleared, nothing else changes; lines raised together are the same lines raised one after the other, in either order. -/
def Obligations.RaiseOnlySetsRequestLines : Prop :=
  ∀ (s : State) (lines lines' : BitVec 5),
    encode s.cfg (.raise lines) = 0x2#4 ++ 0x0#19 ++ lines ++ 0x0#4 ∧
    ∃ t u, exec (.raise lines) s = .next t ∧
      t = { s with block := { s.block with request := t.block.request }, result := .nothing } ∧
      (∀ k, t.block.request.getLsbD k = (s.block.request.getLsbD k || (decide (k < 5) && lines.getLsbD k))) ∧
      exec (.raise lines') t = .next u ∧ exec (.raise (lines ||| lines')) s = .next u ∧
      exec (.raise (lines' ||| lines)) s = .next u ∧ (lines = 0 → t.block = s.block)

/-! ## The TimerUnit -/

/-- R111: the four rates. -/
def Obligations.RateTable : Prop :=
  rate 0b00 = 1024 ∧ rate 0b01 = 16 ∧ rate 0b10 = 64 ∧ rate 0b11 = 256

/-- R110, R112: `TICK n` in closed form. A disabled timer advances `counter` alone; an enabled one makes
`k = (sub + n) / rate` increments, each past 0xFF reloading. Nothing but `counter`, `sub`, `counter_reg` and the result
changes. -/
def Obligations.TickClosedForm : Prop :=
  ∀ (s : State) (n : Nat),
    (s.block.control.getLsbD 2 = false →
      exec (.tick n) s = .next { s with
        block := { s.block with counter := s.block.counter + BitVec.ofNat 16 n }, result := .overflow false }) ∧
    (∀ per k T M : Nat, s.block.control.getLsbD 2 = true → per = rate (s.block.control.extractLsb' 0 2) →
      k = (s.block.sub.toNat + n) / per → T = s.block.counterReg.toNat → M = s.block.reloadReg.toNat →
      exec (.tick n) s = .next { s with
        block := { s.block with
          counter := s.block.counter + BitVec.ofNat 16 n
          sub := BitVec.ofNat 10 ((s.block.sub.toNat + n) % per)
          counterReg := BitVec.ofNat 8 (if k ≤ 255 - T then T + k else M + (k - (256 - T)) % (256 - M)) }
        result := .overflow (decide (255 - T < k)) })

/-- R113: with the timer enabled the first overflow comes at increment number `256 - T`; the call in which it does leaves the
reload value `M`, and 0 in `sub` where the cycles end with that increment, so the next overflow comes `256 - M` increments,
then `(256 - M) * rate` cycles, later, with `M = 0xFF` at every increment; from zeros at selector 00 the first comes after
exactly 262144 cycles. -/
def Obligations.TimerPeriods : Prop :=
  ∀ (s : State) (n : Nat), s.block.control.getLsbD 2 = true →
    ∃ t ov, exec (.tick n) s = .next t ∧ t.result = .overflow ov ∧
      (ov = true ↔ 256 - s.block.counterReg.toNat ≤
        (s.block.sub.toNat + n) / rate (s.block.control.extractLsb' 0 2)) ∧
      ((s.block.sub.toNat + n) / rate (s.block.control.extractLsb' 0 2) = 256 - s.block.counterReg.toNat →
        ov = true ∧ t.block.counterReg = s.block.reloadReg ∧ t.block.reloadReg = s.block.reloadReg ∧
        (s.block.sub.toNat + n = (256 - s.block.counterReg.toNat) * rate (s.block.control.extractLsb' 0 2) →
          t.block.sub = 0) ∧
        ∀ m, ∃ u ov', exec (.tick m) t = .next u ∧ u.result = .overflow ov' ∧
          (ov' = true ↔ 256 - s.block.reloadReg.toNat ≤
            (t.block.sub.toNat + m) / rate (s.block.control.extractLsb' 0 2)) ∧
          (t.block.sub = 0 →
            (ov' = true ↔ (256 - s.block.reloadReg.toNat) * rate (s.block.control.extractLsb' 0 2) ≤ m))) ∧
      (s.block.counterReg = s.block.reloadReg → s.block.sub = 0 →
        (ov = true ↔ (256 - s.block.reloadReg.toNat) * rate (s.block.control.extractLsb' 0 2) ≤ n)) ∧
      (s.block.counterReg = 0xFF → s.block.reloadReg = 0xFF → s.block.sub = 0 →
        (ov = true ↔ rate (s.block.control.extractLsb' 0 2) ≤ n)) ∧
      (s.block.counterReg = 0 → s.block.sub = 0 → s.block.control = 0b100 → (ov = true ↔ 262144 ≤ n))

/-- R116: (a) 256 cycles, however split, advance the divider byte by one; (b) it reads 0x00 after `WR DIVIDER`; (c) a
disabled tick changes only `counter`; (d) chunking does not matter; (e) after an overflow the programmable counter is at or
above the reload value. The first two clauses tie `TICK` and `RD DIVIDER` to the functions the others speak of. -/
def Obligations.TimerLaws : Prop :=
  (∀ (s : State) (n : Nat), exec (.tick n) s = .next { s with
    block := tick n s.block, result := .overflow (tickOverflow n s.block) }) ∧
  (∀ s : State, exec .rdDivider s = .next { s with result := .byte (s.block.counter.extractLsb' 8 8) }) ∧
  (∀ (b : Block) (cs : List Nat), cs.sum = 256 →
    (cs.foldl (fun x c => tick c x) b).counter.extractLsb' 8 8 = b.counter.extractLsb' 8 8 + 1) ∧
  (∀ (s : State) (v : Byte), ∃ t u, exec (.wrDivider v) s = .next t ∧ exec .rdDivider t = .next u ∧ u.result = .byte 0x00) ∧
  (∀ (b : Block) (n : Nat), b.control.getLsbD 2 = false →
    tick n b = { b with counter := b.counter + BitVec.ofNat 16 n } ∧ tickOverflow n b = false) ∧
  (∀ (b : Block) (m n : Nat), tick n (tick m b) = tick (m + n) b ∧
    tickOverflow (m + n) b = (tickOverflow m b || tickOverflow n (tick m b))) ∧
  (∀ (b : Block) (n : Nat), tickOverflow n b = true → b.reloadReg ≤ (tick n b).counterReg)

/-! ## The InterruptController -/

/-- R126: the vector table, and its arithmetic form. -/
def Obligations.VectorTable : Prop :=
  vector .displayVBlank = 0x0040 ∧ vector .displayStatus = 0x0048 ∧ vector .timerOverflow = 0x0050 ∧
  vector .serialComplete = 0x0058 ∧ vector .inputEdge = 0x0060 ∧
  ∀ i : Source, vector i = 0x0040 + 8 * BitVec.ofNat 16 i.index

/-- R125: the priority evaluation answers `none` exactly when Master Enable is 0 or nothing is pending and enabled, and
otherwise the source of least index; it changes nothing. Its word is 0x40000000. -/
def Obligations.PriorityEvaluation : Prop :=
  ∀ s : State, encode s.cfg .pendvec = 0x40000000 ∧ ∃ v, exec .pendvec s = .next { s with result := .source v } ∧
    (v = none ↔ s.block.ime = false ∨ s.block.request &&& s.block.enable &&& 0x1F = 0) ∧
    (∀ i, v = some i → s.block.request.getLsbD i.index = true ∧ s.block.enable.getLsbD i.index = true ∧
      ∀ j : Source, j.index < i.index →
        (s.block.request.getLsbD j.index && s.block.enable.getLsbD j.index) = false)

/-- R127, R54, R166: a dispatch whose two pushes do not land on a register. It is unconditional, costs 20, clears `ime`,
leaves the return address high byte at `sp - 1` and low byte at `sp - 2`, lowers `sp` by 2 modulo 2^16 and sets `pc` to the
vector; the rest of the block, of the environment and every other byte of the address space are as before. -/
def Obligations.DispatchEntersHandler : Prop :=
  ∀ (s : State) (i : Source) (p : Addr), s.env.mem.wf →
    (∀ r : Reg, s.cfg.addr r ≠ s.env.sp - 1 ∧ s.cfg.addr r ≠ s.env.sp - 2) →
    ∃ t, exec (.dispatch i p) s = .next t ∧ t.result = .cost 20 ∧ t.block = { s.block with ime := false } ∧
      t.env = { s.env with pc := vector i, sp := s.env.sp - 2, mem := t.env.mem } ∧ t.cfg = s.cfg ∧ t.port = s.port ∧
      memRead (s.env.sp - 1) t = p.extractLsb' 8 8 ∧ memRead (s.env.sp - 2) t = p.extractLsb' 0 8 ∧
      ∀ a, a ≠ s.env.sp - 1 → a ≠ s.env.sp - 2 → memRead a t = memRead a s

/-- R127, R52, R195: a dispatch is its two `MemWrite`s whatever the stack pointer is; where one of them lands on a register
it is that register's write rule. `ei_pending`, `halted` and `bug_latch` are never touched, `ime` always ends 0. -/
def Obligations.DispatchPushesOntoRegisters : Prop :=
  ∀ (s : State) (i : Source) (p : Addr),
    ∃ t, exec (.dispatch i p) s = .next t ∧ t.result = .cost 20 ∧ t.cfg = s.cfg ∧ t.port = s.port ∧
      t.env = { s.env with pc := vector i, sp := s.env.sp - 2, mem := t.env.mem } ∧
      t.block.ime = false ∧ t.block.eiPending = s.block.eiPending ∧ t.block.halted = s.block.halted ∧
      t.block.bugLatch = s.block.bugLatch ∧
      (∀ u, u = memWrite (s.env.sp - 2) (p.extractLsb' 0 8) (memWrite (s.env.sp - 1) (p.extractLsb' 8 8) s) →
        t.block = { u.block with ime := false } ∧ t.env.mem = u.env.mem) ∧
      (∀ r : Reg, s.cfg.wf → s.cfg.addr r = s.env.sp - 1 → (∀ r' : Reg, s.cfg.addr r' ≠ s.env.sp - 2) →
        t.block = match r with
          | .divider => { s.block with ime := false, counter := 0, sub := 0 }
          | .counter => { s.block with ime := false, counterReg := p.extractLsb' 8 8 }
          | .reload => { s.block with ime := false, reloadReg := p.extractLsb' 8 8 }
          | .control => { s.block with ime := false, control := p.extractLsb' 8 3 }
          | .request => { s.block with ime := false, request := p.extractLsb' 8 8 }
          | .enable => { s.block with ime := false, enable := p.extractLsb' 8 8 }) ∧
      (∀ r : Reg, s.cfg.wf → s.cfg.addr r = s.env.sp - 2 → (∀ r' : Reg, s.cfg.addr r' ≠ s.env.sp - 1) →
        t.block = match r with
          | .divider => { s.block with ime := false, counter := 0, sub := 0 }
          | .counter => { s.block with ime := false, counterReg := p.extractLsb' 0 8 }
          | .reload => { s.block with ime := false, reloadReg := p.extractLsb' 0 8 }
          | .control => { s.block with ime := false, control := p.extractLsb' 0 3 }
          | .request => { s.block with ime := false, request := p.extractLsb' 0 8 }
          | .enable => { s.block with ime := false, enable := p.extractLsb' 0 8 })

/-- R128 to R131: the four operations on Master Enable and the delayed enable; nothing else changes. -/
def Obligations.MasterEnableRequests : Prop :=
  ∀ s : State,
    exec .enImm s = .next { s with block := { s.block with ime := true, eiPending := false }, result := .nothing } ∧
    exec .disImm s = .next { s with block := { s.block with ime := false }, result := .nothing } ∧
    exec .enDly s = .next { s with block := { s.block with eiPending := true }, result := .nothing } ∧
    exec .resolve s = .next { s with
      block := { s.block with ime := s.block.ime || s.block.eiPending, eiPending := false }, result := .nothing }

/-- R132: the closed list of what changes Master Enable. Outside `STEP`: `DISPATCH`, `DIS_IMM` and `RESET` to 0, `EN_IMM`
and an armed `RESOLVE` to 1. Inside a `STEP` entered with no delayed enable pending whose instruction, if any, issues neither
`EN_IMM` nor `DIS_IMM`: only the dispatch, which clears it. So no wake and no idle step changes it by itself. -/
def Obligations.MasterEnableClosedList : Prop :=
  (∀ (s t : State) (i : Instr), exec i s = .next t → i ≠ .step → t.block.ime ≠ s.block.ime →
    (∃ src p, i = .dispatch src p ∧ t.block.ime = false) ∨ (i = .disImm ∧ t.block.ime = false) ∨
    (i = .enImm ∧ t.block.ime = true) ∨ (i = .resolve ∧ s.block.eiPending = true ∧ t.block.ime = true) ∨
    (i = .reset ∧ t.block.ime = false)) ∧
  (∀ s t : State, exec .step s = .next t → s.block.eiPending = false →
    (s.block.halted = false →
      ∀ x ∈ (nextAnswer s.block.bugLatch { s with block := { s.block with bugLatch := false } }).actions,
        x ≠ .enImm ∧ x ≠ .disImm) →
    t.block.ime ≠ s.block.ime →
      t.block.ime = false ∧ ∃ i : Source, t.env.pc = vector i)

/-- R127 corner case (c), R188: a handler that re-enables with `EN_IMM` without clearing the request is dispatched again. The
evaluation right after an `EN_IMM` finds that source, or one of lower index that is pending and enabled. The `STEP` of an
instruction that issues `EN_IMM` alone, given as the executor's next answer (log entry 4), dispatches: it is that source
again where none of lower index is pending and enabled after the step's tick, and otherwise the least such. -/
def Obligations.UnacknowledgedRequestDispatchedAgain : Prop :=
  ∀ (s : State) (i : Source) (p : Addr),
    (∀ r : Reg, s.cfg.addr r ≠ s.env.sp - 1 ∧ s.cfg.addr r ≠ s.env.sp - 2) →
    s.block.request.getLsbD i.index = true → s.block.enable.getLsbD i.index = true →
    ∃ t u v j, exec (.dispatch i p) s = .next t ∧ exec .enImm t = .next u ∧ exec .pendvec u = .next v ∧
      t.block.request = s.block.request ∧ v.result = .source (some j) ∧ j.index ≤ i.index ∧
      ((∀ k : Source, k.index < i.index → (s.block.request.getLsbD k.index && s.block.enable.getLsbD k.index) = false) →
        j = i) ∧
      ∀ (a : ExecAnswer) (rest : List ExecAnswer), s.block.halted = false → s.env.answers = a :: rest →
        a.actions = [.enImm] →
        ∃ w k, exec .step t = .next w ∧ w.result = .cost (a.cost + 20) ∧ w.block.ime = false ∧ w.env.sp = a.sp - 2 ∧
          w.env.pc = vector k ∧ k.index ≤ i.index ∧
          ((s.block.request ||| (if tickOverflow a.cost s.block then 0x04 else 0)) &&& s.block.enable).getLsbD k.index = true ∧
          ∀ l : Source, l.index < k.index →
            ((s.block.request ||| (if tickOverflow a.cost s.block then 0x04 else 0)) &&& s.block.enable).getLsbD l.index = false

/-! ## The StepScheduler -/

/-- R140, R141: `SLEEP` sets `halted`; it arms the latch exactly when `HALT_BUG_ENABLE` is set, Master Enable is 0 and
nothing is pending and enabled; nothing else changes. -/
def Obligations.SleepSetsHaltedAndArmsLatch : Prop :=
  ∀ s : State,
    ((s.cfg.haltBugEnable = true ∧ s.block.ime = false ∧ s.block.request &&& s.block.enable &&& 0x1F = 0) →
      exec .sleep s = .next { s with block := { s.block with halted := true, bugLatch := true }, result := .nothing }) ∧
    (¬ (s.cfg.haltBugEnable = true ∧ s.block.ime = false ∧ s.block.request &&& s.block.enable &&& 0x1F = 0) →
      exec .sleep s = .next { s with block := { s.block with halted := true }, result := .nothing })

/-- R143: `STEP` is the composition of `TICK`, the fold of the overflow, `RESOLVE` if armed, `PENDVEC` and `DISPATCH` that
the algorithm gives, after an idle, a wake or an executed instruction. Its word is 0xB0000000. -/
def Obligations.StepComposesPortOperations : Prop :=
  ∀ s : State, encode s.cfg .step = 0xB0000000 ∧
    (s.block.halted = true → s.block.request &&& s.block.enable &&& 0x1F = 0 →
      ∃ t ov, exec (.tick s.cfg.idleCost) s = .next t ∧ t.result = .overflow ov ∧
        exec .step s = .next { t with
          block := { t.block with request := if ov then t.block.request ||| 0x04 else t.block.request }
          result := .cost s.cfg.idleCost }) ∧
    (∀ (u s0 : State) (base : Nat), s0 = { s with block := { s.block with bugLatch := false } } →
      ((s.block.halted = true ∧ s.block.request &&& s.block.enable &&& 0x1F ≠ 0 ∧
          u = { s with block := { s.block with halted := false } } ∧ base = 4) ∨
       (s.block.halted = false ∧ u = execute s.block.bugLatch s0 ∧ base = (nextAnswer s.block.bugLatch s0).cost)) →
      ∃ t1 ov t2 t3 t4 v, exec (.tick base) u = .next t1 ∧ t1.result = .overflow ov ∧
        t2 = { t1 with block := { t1.block with request := if ov then t1.block.request ||| 0x04 else t1.block.request } } ∧
        (s.block.eiPending = true → exec .resolve t2 = .next t3) ∧ (s.block.eiPending = false → t3 = t2) ∧
        exec .pendvec t3 = .next t4 ∧ t4.result = .source v ∧
        (v = none → exec .step s = .next { t3 with result := .cost base }) ∧
        (∀ i, v = some i → ∃ t5, exec (.dispatch i t3.env.pc) t3 = .next t5 ∧
          exec .step s = .next { t5 with result := .cost (base + 20) }))

/-- R148: the idle step ticks the timer by `IDLE_COST` and folds an overflow; the instruction, the resolution and the
evaluation are skipped, so the flags and the whole environment stay; a request that is then pending is acted on by the next
`STEP`, which wakes. -/
def Obligations.IdleStepOnlyAdvancesTimer : Prop :=
  ∀ s : State, s.block.halted = true → s.block.request &&& s.block.enable &&& 0x1F = 0 →
    ∃ t, exec .step s = .next t ∧ t.result = .cost s.cfg.idleCost ∧ t.env = s.env ∧ t.cfg = s.cfg ∧ t.port = s.port ∧
      t.block = { tick s.cfg.idleCost s.block with
        request := if tickOverflow s.cfg.idleCost s.block then s.block.request ||| 0x04 else s.block.request } ∧
      t.block.halted = true ∧ t.block.ime = s.block.ime ∧ t.block.eiPending = s.block.eiPending ∧
      t.block.bugLatch = s.block.bugLatch ∧
      (t.block.request &&& t.block.enable &&& 0x1F ≠ 0 →
        ∃ u, exec .step t = .next u ∧ u.block.halted = false ∧ u.env.calls = t.env.calls ∧
          (u.result = .cost 4 ∨ u.result = .cost 24))

/-- R149: the wake step executes nothing. With Master Enable 0 and no delayed enable armed it costs 4 and dispatches
nothing; otherwise a dispatch is certain, the total is 24, and the return address is `Env.pc`. -/
def Obligations.WakeStepResumesOrDispatches : Prop :=
  ∀ s : State, s.block.halted = true → s.block.request &&& s.block.enable &&& 0x1F ≠ 0 →
    ∃ t, exec .step s = .next t ∧ t.block.halted = false ∧ t.env.calls = s.env.calls ∧ t.cfg = s.cfg ∧ t.port = s.port ∧
      (s.block.ime = false → s.block.eiPending = false →
        t.result = .cost 4 ∧ t.env = s.env ∧
        t.block = { tick 4 s.block with
          halted := false
          request := if tickOverflow 4 s.block then s.block.request ||| 0x04 else s.block.request }) ∧
      (s.block.ime = true ∨ s.block.eiPending = true →
        t.result = .cost 24 ∧ t.block.ime = false ∧ t.block.eiPending = false ∧ t.env.sp = s.env.sp - 2 ∧
        ∃ i : Source, t.env.pc = vector i ∧ s.block.enable.getLsbD i.index = true ∧
          (s.env.mem.wf → (∀ r : Reg, s.cfg.addr r ≠ s.env.sp - 1 ∧ s.cfg.addr r ≠ s.env.sp - 2) →
            memRead (s.env.sp - 1) t = s.env.pc.extractLsb' 8 8 ∧ memRead (s.env.sp - 2) t = s.env.pc.extractLsb' 0 8 ∧
            t.block.counter = s.block.counter + 4))

/-- R146: the cost `STEP` reports: `IDLE_COST`, 4 or 24 for a step entered asleep; the instruction's cost, or that and 20
with a dispatch, for a running step. A step that dispatched ends with Master Enable 0 at a vector. -/
def Obligations.StepCost : Prop :=
  ∀ s : State, ∃ t n, exec .step s = .next t ∧ t.result = .cost n ∧
    (s.block.halted = true → s.block.request &&& s.block.enable &&& 0x1F = 0 → n = s.cfg.idleCost) ∧
    (s.block.halted = true → s.block.request &&& s.block.enable &&& 0x1F ≠ 0 → n = 4 ∨ n = 24) ∧
    (∀ c, s.block.halted = false →
      c = (nextAnswer s.block.bugLatch { s with block := { s.block with bugLatch := false } }).cost →
      n = c ∨ (n = c + 20 ∧ t.block.ime = false ∧ ∃ i : Source, t.env.pc = vector i))

/-- R11, R144, R58: what the executor does inside `Env.execute` is the port's own operations, applied at once and in the order
issued. The call takes the next answer (the launch state's, else the free value, log entry 4) from a state that differs only
in the model's own fields; the answer's actions are applied one by one, the first first, each to the state the one before
left; `pc` and `sp` are then the answer's. A hook is its command, an access to a register address is the register's command,
an access elsewhere is memory. -/
def Obligations.ExecutorActionsAreOperations : Prop :=
  ∀ s : State,
    (∀ refetch, execute refetch s = runAnswer (nextAnswer refetch s) { s with env := { s.env with
      answers := s.env.answers.tail, calls := s.env.calls + 1, refetch := refetch, reads := [] } }) ∧
    (∀ refetch a rest, s.env.answers = a :: rest → nextAnswer refetch s = a) ∧
    (∀ refetch, s.env.answers = [] →
      nextAnswer refetch s = Config.execute s.cfg s.env.calls (execView refetch s)) ∧
    (∀ pc sp cost, runAnswer ⟨[], pc, sp, cost⟩ s = { s with env := { s.env with pc := pc, sp := sp } }) ∧
    (∀ x xs pc sp cost, runAnswer ⟨x :: xs, pc, sp, cost⟩ s = runAnswer ⟨xs, pc, sp, cost⟩ (applyAction s x)) ∧
    (∀ x, (applyAction s x).cfg = s.cfg ∧ (applyAction s x).port = s.port ∧ (applyAction s x).result = s.result) ∧
    (∃ t, exec .enImm s = .next t ∧ (applyAction s .enImm).block = t.block ∧ (applyAction s .enImm).env = s.env) ∧
    (∃ t, exec .disImm s = .next t ∧ (applyAction s .disImm).block = t.block ∧ (applyAction s .disImm).env = s.env) ∧
    (∃ t, exec .enDly s = .next t ∧ (applyAction s .enDly).block = t.block ∧ (applyAction s .enDly).env = s.env) ∧
    (∃ t, exec .sleep s = .next t ∧ (applyAction s .sleep).block = t.block ∧ (applyAction s .sleep).env = s.env) ∧
    (∀ (r : Reg) (v : Byte), s.cfg.wf →
      (∃ t, exec (.wr r v) s = .next t ∧ (applyAction s (.write (s.cfg.addr r) v)).block = t.block ∧
        (applyAction s (.write (s.cfg.addr r) v)).env = s.env) ∧
      (∃ t x, exec (.rd r) s = .next t ∧ t.result = .byte x ∧ (applyAction s (.read (s.cfg.addr r))).block = s.block ∧
        (applyAction s (.read (s.cfg.addr r))).env = { s.env with reads := s.env.reads ++ [x] })) ∧
    (∀ (a : Addr) (v : Byte), s.env.mem.wf → (∀ r : Reg, s.cfg.addr r ≠ a) →
      (applyAction s (.write a v)).block = s.block ∧ (applyAction s (.read a)).block = s.block ∧
      (applyAction s (.write a v)).env = { s.env with mem := (applyAction s (.write a v)).env.mem } ∧
      (∀ k, (applyAction s (.write a v)).env.mem.get k = if a.toNat = k then v else s.env.mem.get k) ∧
      (applyAction s (.read a)).env = { s.env with reads := s.env.reads ++ [s.env.mem.get a.toNat] })

/-- R151 (b), R141: the executor is called exactly once in a step entered running and not at all in one entered asleep; it is
handed the latch as `refetch`, and the latch is cleared by the call unless the instruction's own `SLEEP` arms it again. -/
def Obligations.ExecutorCalledOncePerRunningStep : Prop :=
  ∀ s : State, ∃ t, exec .step s = .next t ∧
    (s.block.halted = true → t.env.calls = s.env.calls ∧ t.env.refetch = s.env.refetch ∧
      t.env.answers = s.env.answers ∧ t.block.bugLatch = s.block.bugLatch) ∧
    (s.block.halted = false → t.env.calls = s.env.calls + 1 ∧ t.env.refetch = s.block.bugLatch ∧
      t.env.answers = s.env.answers.tail ∧
      (ExecAction.sleep ∉ (nextAnswer s.block.bugLatch { s with block := { s.block with bugLatch := false } }).actions →
        t.block.bugLatch = false))

/-- R145: after the delayed-enable instruction Master Enable is still 0 through the end of its own step, which dispatches
nothing; the step of the next instruction, be it another delayed enable, an immediate disable, or a return-and-enable alone,
ends with Master Enable 1, or has dispatched. -/
def Obligations.DelayedEnableLatency : Prop :=
  ∀ (s : State) (a b : ExecAnswer) (rest : List ExecAnswer),
    s.block.ime = false → s.block.eiPending = false → s.block.halted = false → s.env.answers = a :: b :: rest →
    a.actions = [.enDly] → (ExecAction.enImm ∉ b.actions ∨ b.actions = [.enImm]) →
    ∃ t u, exec .step s = .next t ∧ t.block.ime = false ∧ t.block.eiPending = true ∧ t.result = .cost a.cost ∧
      t.env.pc = a.pc ∧ exec .step t = .next u ∧ u.block.eiPending = false ∧
      ((u.block.ime = true ∧ u.result = .cost b.cost ∧ u.block.request &&& u.block.enable &&& 0x1F = 0) ∨
       (u.block.ime = false ∧ u.result = .cost (b.cost + 20) ∧ ∃ i : Source, u.env.pc = vector i))

/-- R128, R167: `EN_IMM` issued by an instruction is seen by the evaluation at the end of its own step: a source pending after
the step's tick is dispatched before the instruction at the return address runs. -/
def Obligations.ImmediateEnableSameStep : Prop :=
  ∀ (s : State) (a : ExecAnswer) (rest : List ExecAnswer), s.block.halted = false → s.env.answers = a :: rest →
    a.actions = [.enImm] →
    ∃ t, exec .step s = .next t ∧ t.block.eiPending = false ∧
      ((s.block.request ||| (if tickOverflow a.cost s.block then 0x04 else 0)) &&& s.block.enable &&& 0x1F = 0 →
        t.block.ime = true ∧ t.result = .cost a.cost ∧ t.env.pc = a.pc ∧ t.env.sp = a.sp) ∧
      ((s.block.request ||| (if tickOverflow a.cost s.block then 0x04 else 0)) &&& s.block.enable &&& 0x1F ≠ 0 →
        t.block.ime = false ∧ t.result = .cost (a.cost + 20) ∧ t.env.sp = a.sp - 2 ∧ ∃ i : Source, t.env.pc = vector i)

/-- R147: a sleep instruction whose own step dispatches leaves `halted` set; the next step wakes, costs 4, executes nothing
and goes on at the vector. -/
def Obligations.SleepThenDispatchStaysHalted : Prop :=
  ∀ (s : State) (a : ExecAnswer) (rest : List ExecAnswer), s.block.halted = false → s.env.answers = a :: rest →
    a.actions = [.sleep] → s.block.ime = true → s.block.eiPending = false →
    (s.block.request ||| (if tickOverflow a.cost s.block then 0x04 else 0)) &&& s.block.enable &&& 0x1F ≠ 0 →
    (∀ r : Reg, s.cfg.addr r ≠ a.sp - 1 ∧ s.cfg.addr r ≠ a.sp - 2) →
    ∃ t u i, exec .step s = .next t ∧ t.block.halted = true ∧ t.block.ime = false ∧ t.result = .cost (a.cost + 20) ∧
      t.env.pc = vector i ∧ t.env.sp = a.sp - 2 ∧
      exec .step t = .next u ∧ u.block.halted = false ∧ u.block.ime = false ∧ u.result = .cost 4 ∧ u.env = t.env

/-- R151 (e), R142: a step that ends asleep was an idle step, or its instruction issued `SLEEP`. -/
def Obligations.AsleepAfterStepOnlyByIdleOrSleep : Prop :=
  ∀ s t : State, exec .step s = .next t → t.block.halted = true →
    (s.block.halted = true ∧ s.block.request &&& s.block.enable &&& 0x1F = 0) ∨
    (s.block.halted = false ∧
      ExecAction.sleep ∈ (nextAnswer s.block.bugLatch { s with block := { s.block with bugLatch := false } }).actions)

/-- R26, R151 (d): no operation clears a request bit on its own. Only `WR REQUEST` and `RESET`, a bus write of REQUEST by the
step's instruction, and a push that lands on REQUEST can. -/
def Obligations.RequestBitsNeverCleared : Prop :=
  ∀ (s t : State) (i : Instr), exec i s = .next t → (∀ v, i ≠ .wrRequest v) → i ≠ .reset →
    ((∃ src p, i = .dispatch src p) ∨ (i = .step ∧ s.block.halted = true) →
      s.cfg.addrRequest ≠ s.env.sp - 1 ∧ s.cfg.addrRequest ≠ s.env.sp - 2) →
    (∀ a, i = .step → s.block.halted = false →
      a = nextAnswer s.block.bugLatch { s with block := { s.block with bugLatch := false } } →
      (∀ v, ExecAction.write s.cfg.addrRequest v ∉ a.actions) ∧
      s.cfg.addrRequest ≠ a.sp - 1 ∧ s.cfg.addrRequest ≠ a.sp - 2) →
    s.block.request ||| t.block.request = t.block.request

/-- R190, R179: asleep with nothing enabled, any number of `STEP` commands leaves the scheduler asleep, with no instruction
executed. -/
def Obligations.SleepWithNothingEnabledNeverWakes : Prop :=
  ∀ (s : State) (k : Nat), s.block.halted = true → s.block.enable &&& 0x1F = 0 →
    s.port = List.replicate k 0xB0000000 →
    ∃ t, Host.Core.run Sys2Proof.core k s = .next t ∧ t.block.halted = true ∧ t.env = s.env ∧
      t.block.ime = s.block.ime ∧ t.block.counter = s.block.counter + BitVec.ofNat 16 (k * s.cfg.idleCost)

/-- R150, R185: `RESET` puts every element of the block at its reset value from any state, touches neither the environment
nor the configuration, leaves no source to dispatch, and with the default parameters leaves the block as power-on does. Its
word is 0xC0000000. -/
def Obligations.ResetRestoresBlock : Prop :=
  ∀ s : State, encode s.cfg .reset = 0xC0000000 ∧
    exec .reset s = .next { s with
      block := { counter := s.cfg.resetCounter, sub := s.cfg.resetSub, counterReg := s.cfg.resetCounterReg,
                 reloadReg := s.cfg.resetReloadReg, control := s.cfg.resetControl, request := s.cfg.resetRequest,
                 enable := s.cfg.resetEnable, ime := false, eiPending := false, halted := false, bugLatch := false }
      result := .nothing } ∧
    (s.cfg = Cfg.default → ∃ t, exec .reset s = .next t ∧ t.block = State.reset.block) ∧
    (∃ t u, exec .reset s = .next t ∧ exec .pendvec t = .next u ∧ u.result = .source none)

/-- R40, R185: after power-on, with the default parameters, all eleven elements are zero. -/
def Obligations.PowerOnState : Prop :=
  State.reset.block.counter = 0 ∧ State.reset.block.sub = 0 ∧ State.reset.block.counterReg = 0 ∧
  State.reset.block.reloadReg = 0 ∧ State.reset.block.control = 0 ∧ State.reset.block.request = 0 ∧
  State.reset.block.enable = 0 ∧ State.reset.block.ime = false ∧ State.reset.block.eiPending = false ∧
  State.reset.block.halted = false ∧ State.reset.block.bugLatch = false

/-! ## The whole machine -/

/-- R51, R52, R65: the registers and the environment's memory are one flat byte array: a write changes what is read at its
own address only, and there a read returns what the register keeps of the byte, or the byte. -/
def Obligations.FlatByteArray : Prop :=
  ∀ (s : State) (a b : Addr) (v : Byte), s.cfg.wf → s.env.mem.wf →
    (b ≠ a → memRead b (memWrite a v s) = memRead b s) ∧
    ((∀ r : Reg, s.cfg.addr r ≠ a) → memRead a (memWrite a v s) = v ∧ (memWrite a v s).block = s.block) ∧
    (∀ r : Reg, s.cfg.addr r = a → (memWrite a v s).env = s.env ∧
      memRead a (memWrite a v s) = match r with
        | .divider => 0x00
        | .counter => v
        | .reload => v
        | .control => s.cfg.controlReadHigh ++ v.extractLsb' 0 3
        | .request => if s.cfg.highBitsForceOne then v ||| 0xE0 else v
        | .enable => if s.cfg.highBitsForceOne then v ||| 0xE0 else v)

/-- R20, R35, R41: no operation but `STEP` and `DISPATCH` touches the environment, and none changes the configuration or the
commands waiting at the port. -/
def Obligations.OnlyStepAndDispatchTouchEnvironment : Prop :=
  ∀ (s t : State) (i : Instr), exec i s = .next t →
    t.cfg = s.cfg ∧ t.port = s.port ∧ ((∃ src p, i = .dispatch src p) ∨ i = .step ∨ t.env = s.env)

/-- R160: no operation faults and none is without a meaning: every state, whatever stands at the port, has a next state. -/
def Obligations.NoCommandStopsTheMachine : Prop :=
  ∀ s : State, ∃ t, step s = .next t ∧ t.port = s.port.tail

/-- R37, and the canonical form of memory (the model's, log entry 1), at power-on. -/
def Obligations.InvHoldsAtReset : Prop := Inv State.reset

/-- R37: every step keeps the invariant: the latch is set only under `HALT_BUG_ENABLE`; memory keeps its canonical form (the
model's, log entry 1) and lists no register address (R11). -/
def Obligations.StepKeepsInv : Prop := ∀ s t : State, Inv s → step s = .next t → Inv t
end

