-- ==== Sys2Proof/Laws/State.lean ====
section
/-! SUPPORT. One lemma per field per update of the state, true by rfl, so that no proof unfolds a record update. -/

namespace Sys2Proof.Machine

@[simp] theorem State.withBlock_cfg (s : State) (b : Block) : (s.withBlock b).cfg = s.cfg := rfl
@[simp] theorem State.withBlock_block (s : State) (b : Block) : (s.withBlock b).block = b := rfl
@[simp] theorem State.withBlock_env (s : State) (b : Block) : (s.withBlock b).env = s.env := rfl
@[simp] theorem State.withBlock_port (s : State) (b : Block) : (s.withBlock b).port = s.port := rfl
@[simp] theorem State.withBlock_result (s : State) (b : Block) : (s.withBlock b).result = s.result := rfl

@[simp] theorem State.withEnv_cfg (s : State) (e : Env) : (s.withEnv e).cfg = s.cfg := rfl
@[simp] theorem State.withEnv_block (s : State) (e : Env) : (s.withEnv e).block = s.block := rfl
@[simp] theorem State.withEnv_env (s : State) (e : Env) : (s.withEnv e).env = e := rfl
@[simp] theorem State.withEnv_port (s : State) (e : Env) : (s.withEnv e).port = s.port := rfl
@[simp] theorem State.withEnv_result (s : State) (e : Env) : (s.withEnv e).result = s.result := rfl

@[simp] theorem State.withResult_cfg (s : State) (r : Result) : (s.withResult r).cfg = s.cfg := rfl
@[simp] theorem State.withResult_block (s : State) (r : Result) : (s.withResult r).block = s.block := rfl
@[simp] theorem State.withResult_env (s : State) (r : Result) : (s.withResult r).env = s.env := rfl
@[simp] theorem State.withResult_port (s : State) (r : Result) : (s.withResult r).port = s.port := rfl
@[simp] theorem State.withResult_result (s : State) (r : Result) : (s.withResult r).result = r := rfl

@[simp] theorem State.withPort_cfg (s : State) (p : List Word) : (s.withPort p).cfg = s.cfg := rfl
@[simp] theorem State.withPort_block (s : State) (p : List Word) : (s.withPort p).block = s.block := rfl
@[simp] theorem State.withPort_env (s : State) (p : List Word) : (s.withPort p).env = s.env := rfl
@[simp] theorem State.withPort_port (s : State) (p : List Word) : (s.withPort p).port = p := rfl
@[simp] theorem State.withPort_result (s : State) (p : List Word) : (s.withPort p).result = s.result := rfl

@[simp] theorem finish_cfg (b : Block) (r : Result) (s : State) : (finish b r s).cfg = s.cfg := rfl
@[simp] theorem finish_block (b : Block) (r : Result) (s : State) : (finish b r s).block = b := rfl
@[simp] theorem finish_env (b : Block) (r : Result) (s : State) : (finish b r s).env = s.env := rfl
@[simp] theorem finish_port (b : Block) (r : Result) (s : State) : (finish b r s).port = s.port := rfl
@[simp] theorem finish_result (b : Block) (r : Result) (s : State) : (finish b r s).result = r := rfl

@[simp] theorem refuse_cfg (r : RefuseReason) (s : State) : (refuse r s).cfg = s.cfg := rfl
@[simp] theorem refuse_block (r : RefuseReason) (s : State) : (refuse r s).block = s.block := rfl
@[simp] theorem refuse_env (r : RefuseReason) (s : State) : (refuse r s).env = s.env := rfl
@[simp] theorem refuse_port (r : RefuseReason) (s : State) : (refuse r s).port = s.port := rfl
@[simp] theorem refuse_result (r : RefuseReason) (s : State) : (refuse r s).result = .refused r := rfl

@[simp] theorem State.withBlock_self (s : State) : s.withBlock s.block = s := rfl
@[simp] theorem State.withEnv_self (s : State) : s.withEnv s.env = s := rfl
@[simp] theorem State.withBlock_withBlock (s : State) (b b' : Block) : (s.withBlock b).withBlock b' = s.withBlock b' := rfl
@[simp] theorem State.withEnv_withEnv (s : State) (e e' : Env) : (s.withEnv e).withEnv e' = s.withEnv e' := rfl
@[simp] theorem State.withResult_withResult (s : State) (r r' : Result) :
    (s.withResult r).withResult r' = s.withResult r' := rfl
@[simp] theorem State.withPort_withPort (s : State) (p p' : List Word) :
    (s.withPort p).withPort p' = s.withPort p' := rfl

/-- Two states are equal when their five fields are. -/
theorem State.ext_fields {s t : State} (h1 : s.cfg = t.cfg) (h2 : s.block = t.block) (h3 : s.env = t.env)
    (h4 : s.port = t.port) (h5 : s.result = t.result) : s = t := by
  cases s; cases t; simp_all

/-- What a fetch answers when a command waits (R70). -/
theorem fetch_of_port {s : State} {w : Word} {rest : List Word} (h : s.port = w :: rest) :
    fetch s = some (w, s.withPort rest) := by
  simp [fetch, h]

/-- What a fetch answers when none does. -/
theorem fetch_of_empty {s : State} (h : s.port = []) : fetch s = none := by
  simp [fetch, h]

/-- The host's placement of an instruction only changes the port. -/
@[simp] theorem State.withFetchWord_port (s : State) (nbits w : Nat) :
    (s.withFetchWord nbits w).port = tableWord nbits w :: s.port := rfl

end Sys2Proof.Machine
end

