-- ==== Sys2Proof/Laws/Block.lean ====
section
/-! SUPPORT. What each operation on the block leaves of each of its eleven elements. -/

namespace Sys2Proof.Machine

@[simp] theorem orRequest_counter (m : Byte) (b : Block) : (orRequest m b).counter = b.counter := rfl
@[simp] theorem orRequest_sub (m : Byte) (b : Block) : (orRequest m b).sub = b.sub := rfl
@[simp] theorem orRequest_counterReg (m : Byte) (b : Block) : (orRequest m b).counterReg = b.counterReg := rfl
@[simp] theorem orRequest_reloadReg (m : Byte) (b : Block) : (orRequest m b).reloadReg = b.reloadReg := rfl
@[simp] theorem orRequest_control (m : Byte) (b : Block) : (orRequest m b).control = b.control := rfl
@[simp] theorem orRequest_request (m : Byte) (b : Block) : (orRequest m b).request = b.request ||| m := rfl
@[simp] theorem orRequest_enable (m : Byte) (b : Block) : (orRequest m b).enable = b.enable := rfl
@[simp] theorem orRequest_ime (m : Byte) (b : Block) : (orRequest m b).ime = b.ime := rfl
@[simp] theorem orRequest_eiPending (m : Byte) (b : Block) : (orRequest m b).eiPending = b.eiPending := rfl
@[simp] theorem orRequest_halted (m : Byte) (b : Block) : (orRequest m b).halted = b.halted := rfl
@[simp] theorem orRequest_bugLatch (m : Byte) (b : Block) : (orRequest m b).bugLatch = b.bugLatch := rfl

@[simp] theorem foldOverflow_counter (ov : Bool) (b : Block) : (foldOverflow ov b).counter = b.counter := by
  cases ov <;> rfl
@[simp] theorem foldOverflow_sub (ov : Bool) (b : Block) : (foldOverflow ov b).sub = b.sub := by
  cases ov <;> rfl
@[simp] theorem foldOverflow_counterReg (ov : Bool) (b : Block) : (foldOverflow ov b).counterReg = b.counterReg := by
  cases ov <;> rfl
@[simp] theorem foldOverflow_reloadReg (ov : Bool) (b : Block) : (foldOverflow ov b).reloadReg = b.reloadReg := by
  cases ov <;> rfl
@[simp] theorem foldOverflow_control (ov : Bool) (b : Block) : (foldOverflow ov b).control = b.control := by
  cases ov <;> rfl
@[simp] theorem foldOverflow_request (ov : Bool) (b : Block) : (foldOverflow ov b).request = if ov then b.request ||| 0x04 else b.request := by
  cases ov <;> rfl
@[simp] theorem foldOverflow_enable (ov : Bool) (b : Block) : (foldOverflow ov b).enable = b.enable := by
  cases ov <;> rfl
@[simp] theorem foldOverflow_ime (ov : Bool) (b : Block) : (foldOverflow ov b).ime = b.ime := by
  cases ov <;> rfl
@[simp] theorem foldOverflow_eiPending (ov : Bool) (b : Block) : (foldOverflow ov b).eiPending = b.eiPending := by
  cases ov <;> rfl
@[simp] theorem foldOverflow_halted (ov : Bool) (b : Block) : (foldOverflow ov b).halted = b.halted := by
  cases ov <;> rfl
@[simp] theorem foldOverflow_bugLatch (ov : Bool) (b : Block) : (foldOverflow ov b).bugLatch = b.bugLatch := by
  cases ov <;> rfl

@[simp] theorem enableNow_counter (b : Block) : (enableNow b).counter = b.counter := rfl
@[simp] theorem enableNow_sub (b : Block) : (enableNow b).sub = b.sub := rfl
@[simp] theorem enableNow_counterReg (b : Block) : (enableNow b).counterReg = b.counterReg := rfl
@[simp] theorem enableNow_reloadReg (b : Block) : (enableNow b).reloadReg = b.reloadReg := rfl
@[simp] theorem enableNow_control (b : Block) : (enableNow b).control = b.control := rfl
@[simp] theorem enableNow_request (b : Block) : (enableNow b).request = b.request := rfl
@[simp] theorem enableNow_enable (b : Block) : (enableNow b).enable = b.enable := rfl
@[simp] theorem enableNow_ime (b : Block) : (enableNow b).ime = true := rfl
@[simp] theorem enableNow_eiPending (b : Block) : (enableNow b).eiPending = false := rfl
@[simp] theorem enableNow_halted (b : Block) : (enableNow b).halted = b.halted := rfl
@[simp] theorem enableNow_bugLatch (b : Block) : (enableNow b).bugLatch = b.bugLatch := rfl

@[simp] theorem disableNow_counter (b : Block) : (disableNow b).counter = b.counter := rfl
@[simp] theorem disableNow_sub (b : Block) : (disableNow b).sub = b.sub := rfl
@[simp] theorem disableNow_counterReg (b : Block) : (disableNow b).counterReg = b.counterReg := rfl
@[simp] theorem disableNow_reloadReg (b : Block) : (disableNow b).reloadReg = b.reloadReg := rfl
@[simp] theorem disableNow_control (b : Block) : (disableNow b).control = b.control := rfl
@[simp] theorem disableNow_request (b : Block) : (disableNow b).request = b.request := rfl
@[simp] theorem disableNow_enable (b : Block) : (disableNow b).enable = b.enable := rfl
@[simp] theorem disableNow_ime (b : Block) : (disableNow b).ime = false := rfl
@[simp] theorem disableNow_eiPending (b : Block) : (disableNow b).eiPending = b.eiPending := rfl
@[simp] theorem disableNow_halted (b : Block) : (disableNow b).halted = b.halted := rfl
@[simp] theorem disableNow_bugLatch (b : Block) : (disableNow b).bugLatch = b.bugLatch := rfl

@[simp] theorem enableLater_counter (b : Block) : (enableLater b).counter = b.counter := rfl
@[simp] theorem enableLater_sub (b : Block) : (enableLater b).sub = b.sub := rfl
@[simp] theorem enableLater_counterReg (b : Block) : (enableLater b).counterReg = b.counterReg := rfl
@[simp] theorem enableLater_reloadReg (b : Block) : (enableLater b).reloadReg = b.reloadReg := rfl
@[simp] theorem enableLater_control (b : Block) : (enableLater b).control = b.control := rfl
@[simp] theorem enableLater_request (b : Block) : (enableLater b).request = b.request := rfl
@[simp] theorem enableLater_enable (b : Block) : (enableLater b).enable = b.enable := rfl
@[simp] theorem enableLater_ime (b : Block) : (enableLater b).ime = b.ime := rfl
@[simp] theorem enableLater_eiPending (b : Block) : (enableLater b).eiPending = true := rfl
@[simp] theorem enableLater_halted (b : Block) : (enableLater b).halted = b.halted := rfl
@[simp] theorem enableLater_bugLatch (b : Block) : (enableLater b).bugLatch = b.bugLatch := rfl

@[simp] theorem resolveEnable_counter (b : Block) : (resolveEnable b).counter = b.counter := by
  unfold resolveEnable; split <;> simp_all
@[simp] theorem resolveEnable_sub (b : Block) : (resolveEnable b).sub = b.sub := by
  unfold resolveEnable; split <;> simp_all
@[simp] theorem resolveEnable_counterReg (b : Block) : (resolveEnable b).counterReg = b.counterReg := by
  unfold resolveEnable; split <;> simp_all
@[simp] theorem resolveEnable_reloadReg (b : Block) : (resolveEnable b).reloadReg = b.reloadReg := by
  unfold resolveEnable; split <;> simp_all
@[simp] theorem resolveEnable_control (b : Block) : (resolveEnable b).control = b.control := by
  unfold resolveEnable; split <;> simp_all
@[simp] theorem resolveEnable_request (b : Block) : (resolveEnable b).request = b.request := by
  unfold resolveEnable; split <;> simp_all
@[simp] theorem resolveEnable_enable (b : Block) : (resolveEnable b).enable = b.enable := by
  unfold resolveEnable; split <;> simp_all
@[simp] theorem resolveEnable_ime (b : Block) : (resolveEnable b).ime = (b.ime || b.eiPending) := by
  unfold resolveEnable; split <;> simp_all
@[simp] theorem resolveEnable_eiPending (b : Block) : (resolveEnable b).eiPending = false := by
  unfold resolveEnable; split <;> simp_all
@[simp] theorem resolveEnable_halted (b : Block) : (resolveEnable b).halted = b.halted := by
  unfold resolveEnable; split <;> simp_all
@[simp] theorem resolveEnable_bugLatch (b : Block) : (resolveEnable b).bugLatch = b.bugLatch := by
  unfold resolveEnable; split <;> simp_all

@[simp] theorem enterSleep_counter (c : Cfg) (b : Block) : (enterSleep c b).counter = b.counter := by
  unfold enterSleep; split <;> simp_all
@[simp] theorem enterSleep_sub (c : Cfg) (b : Block) : (enterSleep c b).sub = b.sub := by
  unfold enterSleep; split <;> simp_all
@[simp] theorem enterSleep_counterReg (c : Cfg) (b : Block) : (enterSleep c b).counterReg = b.counterReg := by
  unfold enterSleep; split <;> simp_all
@[simp] theorem enterSleep_reloadReg (c : Cfg) (b : Block) : (enterSleep c b).reloadReg = b.reloadReg := by
  unfold enterSleep; split <;> simp_all
@[simp] theorem enterSleep_control (c : Cfg) (b : Block) : (enterSleep c b).control = b.control := by
  unfold enterSleep; split <;> simp_all
@[simp] theorem enterSleep_request (c : Cfg) (b : Block) : (enterSleep c b).request = b.request := by
  unfold enterSleep; split <;> simp_all
@[simp] theorem enterSleep_enable (c : Cfg) (b : Block) : (enterSleep c b).enable = b.enable := by
  unfold enterSleep; split <;> simp_all
@[simp] theorem enterSleep_ime (c : Cfg) (b : Block) : (enterSleep c b).ime = b.ime := by
  unfold enterSleep; split <;> simp_all
@[simp] theorem enterSleep_eiPending (c : Cfg) (b : Block) : (enterSleep c b).eiPending = b.eiPending := by
  unfold enterSleep; split <;> simp_all
@[simp] theorem enterSleep_halted (c : Cfg) (b : Block) : (enterSleep c b).halted = true := by
  unfold enterSleep; split <;> simp_all
@[simp] theorem enterSleep_bugLatch (c : Cfg) (b : Block) : (enterSleep c b).bugLatch = (b.bugLatch || (c.haltBugEnable && !b.ime && decide (pend5 b = 0))) := by
  unfold enterSleep; split <;> simp_all

@[simp] theorem tick_counter (n : Nat) (b : Block) : (tick n b).counter = b.counter + BitVec.ofNat 16 n := by
  unfold tick; split <;> rfl
@[simp] theorem tick_sub (n : Nat) (b : Block) : (tick n b).sub = if timerEnabled b then BitVec.ofNat 10 (tickRun n b).acc else b.sub := by
  unfold tick; split <;> rfl
@[simp] theorem tick_counterReg (n : Nat) (b : Block) : (tick n b).counterReg = if timerEnabled b then (tickRun n b).counterReg else b.counterReg := by
  unfold tick; split <;> rfl
@[simp] theorem tick_reloadReg (n : Nat) (b : Block) : (tick n b).reloadReg = b.reloadReg := by
  unfold tick; split <;> rfl
@[simp] theorem tick_control (n : Nat) (b : Block) : (tick n b).control = b.control := by
  unfold tick; split <;> rfl
@[simp] theorem tick_request (n : Nat) (b : Block) : (tick n b).request = b.request := by
  unfold tick; split <;> rfl
@[simp] theorem tick_enable (n : Nat) (b : Block) : (tick n b).enable = b.enable := by
  unfold tick; split <;> rfl
@[simp] theorem tick_ime (n : Nat) (b : Block) : (tick n b).ime = b.ime := by
  unfold tick; split <;> rfl
@[simp] theorem tick_eiPending (n : Nat) (b : Block) : (tick n b).eiPending = b.eiPending := by
  unfold tick; split <;> rfl
@[simp] theorem tick_halted (n : Nat) (b : Block) : (tick n b).halted = b.halted := by
  unfold tick; split <;> rfl
@[simp] theorem tick_bugLatch (n : Nat) (b : Block) : (tick n b).bugLatch = b.bugLatch := by
  unfold tick; split <;> rfl

@[simp] theorem writeReg_ime (r : Reg) (v : Byte) (b : Block) : (writeReg r v b).ime = b.ime := by
  cases r <;> rfl
@[simp] theorem writeReg_eiPending (r : Reg) (v : Byte) (b : Block) : (writeReg r v b).eiPending = b.eiPending := by
  cases r <;> rfl
@[simp] theorem writeReg_halted (r : Reg) (v : Byte) (b : Block) : (writeReg r v b).halted = b.halted := by
  cases r <;> rfl
@[simp] theorem writeReg_bugLatch (r : Reg) (v : Byte) (b : Block) : (writeReg r v b).bugLatch = b.bugLatch := by
  cases r <;> rfl

/-- The pending value depends on nothing but the two masks (R125). -/
theorem pend5_congr {b b' : Block} (h1 : b.request = b'.request) (h2 : b.enable = b'.enable) : pend5 b = pend5 b' := by
  simp [pend5, h1, h2]

@[simp] theorem pend5_resolveEnable (b : Block) : pend5 (resolveEnable b) = pend5 b := pend5_congr (by simp) (by simp)
@[simp] theorem pend5_tick (n : Nat) (b : Block) : pend5 (tick n b) = pend5 b := pend5_congr (by simp) (by simp)

/-- No evaluation finds a source while Master Enable is 0 (R125). -/
theorem pendingSource_of_ime_false {b : Block} (h : b.ime = false) : pendingSource b = none := by
  simp [pendingSource, h]

/-- Where an evaluation finds a source, Master Enable is 1 (R125). -/
theorem ime_of_pendingSource {b : Block} {i : Source} (h : pendingSource b = some i) : b.ime = true := by
  cases hb : b.ime with
  | true => rfl
  | false => rw [pendingSource_of_ime_false hb] at h; exact absurd h (by simp)

/-- A source an evaluation finds is pending and enabled (R125). -/
theorem pend5_of_pendingSource {b : Block} {i : Source} (h : pendingSource b = some i) :
    (pend5 b).getLsbD i.index = true := by
  rw [pendingSource, if_pos (ime_of_pendingSource h)] at h
  exact List.find?_some (p := fun j : Source => (pend5 b).getLsbD j.index) h

/-- Every source stands in the table (R161). -/
theorem Source_mem_all (i : Source) : i ∈ Source.all := by cases i <;> decide

/-- Every register stands in the table (R29). -/
theorem Reg_mem_all (r : Reg) : r ∈ Reg.all := by cases r <;> decide

/-- Bit `i` of the pending value is bit `i` of both masks (R125). -/
theorem pend5_getLsbD (b : Block) (i : Source) :
    (pend5 b).getLsbD i.index = (b.request.getLsbD i.index && b.enable.getLsbD i.index) := by
  cases i <;> simp [pend5, Source.index]

/-- The pending value is zero exactly when no source is pending and enabled (R125). -/
theorem pend5_eq_zero_iff (b : Block) : pend5 b = 0 ↔ ∀ i : Source, (pend5 b).getLsbD i.index = false := by
  refine ⟨fun h i => by simp [h], fun h => BitVec.eq_of_getLsbD_eq fun k hk => ?_⟩
  rcases (by omega : k = 0 ∨ k = 1 ∨ k = 2 ∨ k = 3 ∨ k = 4 ∨ 5 ≤ k) with rfl | rfl | rfl | rfl | rfl | hk5
  · exact h .displayVBlank
  · exact h .displayStatus
  · exact h .timerOverflow
  · exact h .serialComplete
  · exact h .inputEdge
  · rcases (by omega : k = 5 ∨ k = 6 ∨ k = 7) with rfl | rfl | rfl <;> simp [pend5]

/-- What every source satisfies, each of the five does. -/
theorem forall_source {P : Source → Prop} : (∀ i, P i) ↔
    P .displayVBlank ∧ P .displayStatus ∧ P .timerOverflow ∧ P .serialComplete ∧ P .inputEdge := by
  refine ⟨fun h => ⟨h _, h _, h _, h _, h _⟩, ?_⟩
  rintro ⟨h0, h1, h2, h3, h4⟩ i
  cases i <;> assumption

/-- When the evaluation finds a source: Master Enable is 1, the source is pending and enabled, and none of lower index is (R125). -/
theorem pendingSource_eq_some_iff (b : Block) (i : Source) : pendingSource b = some i ↔
    b.ime = true ∧ (pend5 b).getLsbD i.index = true ∧
      ∀ j : Source, j.index < i.index → (pend5 b).getLsbD j.index = false := by
  rw [forall_source, pendingSource]
  cases b.ime with
  | false => simp
  | true =>
    rw [if_pos rfl]
    generalize (pend5 b).getLsbD = f
    simp only [Source.all, List.find?, Source.index]
    cases h0 : f 0 <;> cases h1 : f 1 <;> cases h2 : f 2 <;> cases h3 : f 3 <;> cases h4 : f 4 <;> cases i <;> simp [*]

/-- When the evaluation finds none (R125). -/
theorem pendingSource_eq_none_iff (b : Block) : pendingSource b = none ↔ b.ime = false ∨ pend5 b = 0 := by
  rw [pend5_eq_zero_iff, forall_source, pendingSource]
  cases b.ime <;> simp [Source.all]

end Sys2Proof.Machine
end

