-- ==== Sys2Proof/Laws/Memory.lean ====
section
/-! SUPPORT. The environment's memory: reading after writing, and that every operation keeps the canonical form. -/

namespace Sys2Proof.Machine

theorem Memory.get_put (m : Memory) (a k : Nat) (x : Byte) :
    (m.put a x).get k = if a = k then x else m.get k := by
  induction m with
  | nil => rfl
  | cons head rest ih =>
    obtain ⟨j, v⟩ := head
    simp only [Memory.put]
    split
    · rfl
    · split
      · next h => subst h; by_cases hk : j = k <;> simp [Memory.get, hk]
      · next h1 h2 =>
        by_cases hj : j = k
        · subst hj; simp [Memory.get, Ne.symm h2]
        · simp [Memory.get, hj, ih]

/-- An address below every listed one reads as unlisted. -/
theorem Memory.get_of_below {m : Memory} {a : Nat} (h : ∀ x ∈ m, a < x.1) : m.get a = Memory.unlisted := by
  induction m with
  | nil => rfl
  | cons head rest ih =>
    obtain ⟨j, v⟩ := head
    have hj : a < j := h (j, v) (by simp)
    simp only [Memory.get, if_neg (by omega : ¬ j = a)]
    exact ih fun x hx => h x (by simp [hx])

theorem Memory.get_drop {m : Memory} (hw : m.wf) (a k : Nat) :
    (m.drop a).get k = if a = k then Memory.unlisted else m.get k := by
  obtain ⟨hs, -⟩ := hw
  induction m with
  | nil => simp [Memory.drop, Memory.get]
  | cons head rest ih =>
    obtain ⟨j, v⟩ := head
    obtain ⟨hlow, hrest⟩ := List.pairwise_cons.mp hs
    by_cases hj : j = a
    · subst hj
      simp only [Memory.drop]
      by_cases hk : j = k
      · subst hk; simpa using Memory.get_of_below hlow
      · simp [Memory.get, hk]
    · simp only [Memory.drop, if_neg hj]
      by_cases hk : j = k
      · subst hk; simp [Memory.get, Ne.symm hj]
      · simp [Memory.get, hk, ih hrest]

/-- Reading one address after writing one: the written byte there, every other as before (R52). -/
theorem Memory.get_set {m : Memory} (hw : m.wf) (a k : Nat) (x : Byte) :
    (m.set a x).get k = if a = k then x else m.get k := by
  unfold Memory.set
  split
  · next h => rw [Memory.get_drop hw, h]
  · exact Memory.get_put m a k x

theorem Memory.mem_drop {m : Memory} {a : Nat} {y : Host.Cell} (h : y ∈ m.drop a) : y ∈ m := by
  induction m with
  | nil => simp [Memory.drop] at h
  | cons head rest ih =>
    obtain ⟨j, v⟩ := head
    simp only [Memory.drop] at h
    split at h
    · exact List.mem_cons_of_mem _ h
    · rcases List.mem_cons.mp h with h | h
      · exact h ▸ List.mem_cons_self
      · exact List.mem_cons_of_mem _ (ih h)

theorem Memory.mem_put {m : Memory} {a : Nat} {x : Byte} {y : Host.Cell} (h : y ∈ m.put a x) : y = (a, x) ∨ y ∈ m := by
  induction m with
  | nil => exact .inl (by simpa [Memory.put] using h)
  | cons head rest ih =>
    obtain ⟨j, v⟩ := head
    simp only [Memory.put] at h
    split at h
    · simpa using h
    · split at h
      · rcases List.mem_cons.mp h with h | h
        · exact .inl h
        · exact .inr (List.mem_cons_of_mem _ h)
      · rcases List.mem_cons.mp h with h | h
        · exact .inr (h ▸ List.mem_cons_self)
        · exact (ih h).imp_right (List.mem_cons_of_mem _)

/-- Every entry after a write is the written one or was there before. -/
theorem Memory.mem_set {m : Memory} {a : Nat} {x : Byte} {y : Host.Cell} (h : y ∈ m.set a x) : y = (a, x) ∨ y ∈ m := by
  unfold Memory.set at h
  split at h
  · exact .inr (Memory.mem_drop h)
  · exact Memory.mem_put h

theorem Memory.pairwise_drop {m : Memory} (a : Nat) (h : m.Pairwise (fun x y => x.1 < y.1)) :
    (m.drop a).Pairwise (fun x y => x.1 < y.1) := by
  induction m with
  | nil => exact h
  | cons head rest ih =>
    obtain ⟨j, v⟩ := head
    obtain ⟨hlow, hrest⟩ := List.pairwise_cons.mp h
    simp only [Memory.drop]
    split
    · exact hrest
    · exact List.pairwise_cons.mpr ⟨fun y hy => hlow y (Memory.mem_drop hy), ih hrest⟩

theorem Memory.pairwise_put {m : Memory} (a : Nat) (x : Byte) (h : m.Pairwise (fun x y => x.1 < y.1)) :
    (m.put a x).Pairwise (fun x y => x.1 < y.1) := by
  induction m with
  | nil => simp [Memory.put]
  | cons head rest ih =>
    obtain ⟨j, v⟩ := head
    obtain ⟨hlow, hrest⟩ := List.pairwise_cons.mp h
    simp only [Memory.put]
    split
    · next ha =>
      refine List.pairwise_cons.mpr ⟨fun y hy => ?_, h⟩
      rcases List.mem_cons.mp hy with hy | hy
      · subst hy; exact ha
      · exact Nat.lt_trans ha (hlow y hy)
    · split
      · next hj => subst hj; exact List.pairwise_cons.mpr ⟨hlow, hrest⟩
      · next h1 h2 =>
        refine List.pairwise_cons.mpr ⟨fun y hy => ?_, ih hrest⟩
        rcases Memory.mem_put hy with hy | hy
        · subst hy; simp only; omega
        · exact hlow y hy

/-- A write keeps the canonical form. -/
theorem Memory.wf_set {m : Memory} (hw : m.wf) {a : Nat} (ha : a < 65536) (x : Byte) : (m.set a x).wf := by
  obtain ⟨hs, hv⟩ := hw
  refine ⟨?_, fun y hy => ?_⟩
  · unfold Memory.set
    split
    · exact Memory.pairwise_drop a hs
    · exact Memory.pairwise_put a x hs
  · unfold Memory.set at hy
    split at hy
    · exact hv y (Memory.mem_drop hy)
    · next hx =>
      rcases Memory.mem_put hy with hy | hy
      · subst hy; exact ⟨ha, hx⟩
      · exact hv y hy

/-- The memory of the state after reset has the canonical form. -/
theorem Memory.wf_reset : State.reset.env.mem.wf := by decide

end Sys2Proof.Machine
end

