-- ==== Sys2Proof/Laws/Bus.lean ====
section
/-! SUPPORT. The bus decode of R74, `MemWrite` (R52), `Env.push` (R11) and the dispatch (R127): what each can do, said once. -/

namespace Sys2Proof.Machine

/-- A register the bus decode answers with has that address. -/
theorem addr_of_regAt {c : Cfg} {a : Addr} {r : Reg} (h : c.regAt a = some r) : c.addr r = a := by
  simpa using List.find?_some h

/-- Where the bus decode answers with none, no register has that address. -/
theorem ne_addr_of_regAt_none {c : Cfg} {a : Addr} (h : c.regAt a = none) (r : Reg) : c.addr r ≠ a := by
  simpa using List.find?_eq_none.mp h r (Reg_mem_all r)

/-- In a configuration of the block two registers do not share an address (R7, D27). -/
theorem addr_injective {c : Cfg} (hc : c.wf) {r r' : Reg} (h : c.addr r = c.addr r') : r = r' :=
  List.inj_on_of_nodup_map hc (Reg_mem_all r) (Reg_mem_all r') h

/-- In a configuration of the block the bus decode finds every register at its address (R74). -/
theorem regAt_addr {c : Cfg} (hc : c.wf) (r : Reg) : c.regAt (c.addr r) = some r := by
  cases h : c.regAt (c.addr r) with
  | none => exact absurd rfl (ne_addr_of_regAt_none h r)
  | some r' => exact congrArg some (addr_injective hc (addr_of_regAt h))

/-- A write on the bus is the write rule of a register or a byte of the environment's memory (R52). -/
theorem memWrite_cases (a : Addr) (v : Byte) (s : State) :
    (∃ r, s.cfg.regAt a = some r ∧ memWrite a v s = s.withBlock (writeReg r v s.block)) ∨
    (s.cfg.regAt a = none ∧ memWrite a v s = s.withEnv { s.env with mem := s.env.mem.set a.toNat v }) := by
  unfold memWrite
  cases h : s.cfg.regAt a with
  | some r => exact .inl ⟨r, rfl, rfl⟩
  | none => exact .inr ⟨rfl, rfl⟩

/-- The bus decode answers with none exactly where no register has the address (R74). -/
theorem regAt_eq_none_iff {c : Cfg} {a : Addr} : c.regAt a = none ↔ ∀ r : Reg, c.addr r ≠ a := by
  refine ⟨ne_addr_of_regAt_none, fun h => ?_⟩
  cases e : c.regAt a with
  | none => rfl
  | some r => exact absurd (addr_of_regAt e) (h r)

/-- A write at no register's address is a byte of the environment's memory (R52). -/
theorem memWrite_of_memory {a : Addr} {s : State} (h : ∀ r : Reg, s.cfg.addr r ≠ a) (v : Byte) :
    memWrite a v s = { s with env := { s.env with mem := s.env.mem.set a.toNat v } } := by
  simp only [memWrite, regAt_eq_none_iff.mpr h]; rfl

/-- A write at a register's address is its write rule (R52). -/
theorem memWrite_of_register {s : State} (hc : s.cfg.wf) (r : Reg) (v : Byte) :
    memWrite (s.cfg.addr r) v s = { s with block := writeReg r v s.block } := by
  simp only [memWrite, regAt_addr hc]; rfl

/-- A push that lands on no register (R11). -/
theorem push_of_memory {s : State} (h : ∀ r : Reg, s.cfg.addr r ≠ s.env.sp - 1) (v : Byte) :
    push v s = { s with env := { s.env with
      sp := s.env.sp - 1, mem := s.env.mem.set (s.env.sp - 1).toNat v } } :=
  memWrite_of_memory (s := s.withEnv { s.env with sp := s.env.sp - 1 }) h v

/-- A push that lands on a register is its write rule (R52). -/
theorem push_of_register {s : State} (hc : s.cfg.wf) {r : Reg} (h : s.cfg.addr r = s.env.sp - 1) (v : Byte) :
    push v s = { s with env := { s.env with sp := s.env.sp - 1 }, block := writeReg r v s.block } := by
  unfold push
  rw [← h]
  exact memWrite_of_register (s := s.withEnv { s.env with sp := s.cfg.addr r }) hc r v

@[simp] theorem memWrite_cfg (a : Addr) (v : Byte) (s : State) : (memWrite a v s).cfg = s.cfg := by
  unfold memWrite; split <;> rfl
@[simp] theorem memWrite_port (a : Addr) (v : Byte) (s : State) : (memWrite a v s).port = s.port := by
  unfold memWrite; split <;> rfl
@[simp] theorem memWrite_result (a : Addr) (v : Byte) (s : State) : (memWrite a v s).result = s.result := by
  unfold memWrite; split <;> rfl
@[simp] theorem memWrite_pc (a : Addr) (v : Byte) (s : State) : (memWrite a v s).env.pc = s.env.pc := by
  unfold memWrite; split <;> rfl
@[simp] theorem memWrite_sp (a : Addr) (v : Byte) (s : State) : (memWrite a v s).env.sp = s.env.sp := by
  unfold memWrite; split <;> rfl
@[simp] theorem memWrite_answers (a : Addr) (v : Byte) (s : State) : (memWrite a v s).env.answers = s.env.answers := by
  unfold memWrite; split <;> rfl
@[simp] theorem memWrite_calls (a : Addr) (v : Byte) (s : State) : (memWrite a v s).env.calls = s.env.calls := by
  unfold memWrite; split <;> rfl
@[simp] theorem memWrite_refetch (a : Addr) (v : Byte) (s : State) : (memWrite a v s).env.refetch = s.env.refetch := by
  unfold memWrite; split <;> rfl
@[simp] theorem memWrite_reads (a : Addr) (v : Byte) (s : State) : (memWrite a v s).env.reads = s.env.reads := by
  unfold memWrite; split <;> rfl
@[simp] theorem memWrite_ime (a : Addr) (v : Byte) (s : State) : (memWrite a v s).block.ime = s.block.ime := by
  unfold memWrite; split <;> simp
@[simp] theorem memWrite_eiPending (a : Addr) (v : Byte) (s : State) :
    (memWrite a v s).block.eiPending = s.block.eiPending := by
  unfold memWrite; split <;> simp
@[simp] theorem memWrite_halted (a : Addr) (v : Byte) (s : State) : (memWrite a v s).block.halted = s.block.halted := by
  unfold memWrite; split <;> simp
@[simp] theorem memWrite_bugLatch (a : Addr) (v : Byte) (s : State) :
    (memWrite a v s).block.bugLatch = s.block.bugLatch := by
  unfold memWrite; split <;> simp

/-- `MemWrite` keeps memory in its canonical form (R52). -/
theorem memWrite_wf {s : State} (h : s.env.mem.wf) (a : Addr) (v : Byte) : (memWrite a v s).env.mem.wf := by
  rcases memWrite_cases a v s with ⟨r, -, hw⟩ | ⟨-, hw⟩
  · rw [hw]; exact h
  · rw [hw]; exact Memory.wf_set h (by omega) v

/-- `Env.push` keeps memory in its canonical form (R11). -/
theorem push_wf {s : State} (h : s.env.mem.wf) (v : Byte) : (push v s).env.mem.wf := by
  unfold push
  exact memWrite_wf (s := s.withEnv { s.env with sp := s.env.sp - 1 }) h _ _

@[simp] theorem push_cfg (v : Byte) (s : State) : (push v s).cfg = s.cfg := by simp [push]
@[simp] theorem push_port (v : Byte) (s : State) : (push v s).port = s.port := by simp [push]
@[simp] theorem push_result (v : Byte) (s : State) : (push v s).result = s.result := by simp [push]
@[simp] theorem push_pc (v : Byte) (s : State) : (push v s).env.pc = s.env.pc := by simp [push]
@[simp] theorem push_sp (v : Byte) (s : State) : (push v s).env.sp = s.env.sp - 1 := by simp [push]
@[simp] theorem push_answers (v : Byte) (s : State) : (push v s).env.answers = s.env.answers := by simp [push]
@[simp] theorem push_calls (v : Byte) (s : State) : (push v s).env.calls = s.env.calls := by simp [push]
@[simp] theorem push_refetch (v : Byte) (s : State) : (push v s).env.refetch = s.env.refetch := by simp [push]
@[simp] theorem push_reads (v : Byte) (s : State) : (push v s).env.reads = s.env.reads := by simp [push]
@[simp] theorem push_ime (v : Byte) (s : State) : (push v s).block.ime = s.block.ime := by simp [push]
@[simp] theorem push_eiPending (v : Byte) (s : State) : (push v s).block.eiPending = s.block.eiPending := by simp [push]
@[simp] theorem push_halted (v : Byte) (s : State) : (push v s).block.halted = s.block.halted := by simp [push]
@[simp] theorem push_bugLatch (v : Byte) (s : State) : (push v s).block.bugLatch = s.block.bugLatch := by simp [push]

@[simp] theorem dispatchTo_cfg (i : Source) (p : Addr) (s : State) : (dispatchTo i p s).cfg = s.cfg := by
  simp [dispatchTo]
@[simp] theorem dispatchTo_port (i : Source) (p : Addr) (s : State) : (dispatchTo i p s).port = s.port := by
  simp [dispatchTo]
@[simp] theorem dispatchTo_result (i : Source) (p : Addr) (s : State) : (dispatchTo i p s).result = s.result := by
  simp [dispatchTo]
@[simp] theorem dispatchTo_calls (i : Source) (p : Addr) (s : State) : (dispatchTo i p s).env.calls = s.env.calls := by
  simp [dispatchTo]
@[simp] theorem dispatchTo_answers (i : Source) (p : Addr) (s : State) :
    (dispatchTo i p s).env.answers = s.env.answers := by
  simp [dispatchTo]
@[simp] theorem dispatchTo_refetch (i : Source) (p : Addr) (s : State) :
    (dispatchTo i p s).env.refetch = s.env.refetch := by
  simp [dispatchTo]
@[simp] theorem dispatchTo_reads (i : Source) (p : Addr) (s : State) : (dispatchTo i p s).env.reads = s.env.reads := by
  simp [dispatchTo]

@[simp] theorem dispatchTo_pc (i : Source) (p : Addr) (s : State) : (dispatchTo i p s).env.pc = vector i := rfl
@[simp] theorem dispatchTo_sp (i : Source) (p : Addr) (s : State) :
    (dispatchTo i p s).env.sp = s.env.sp - 1 - 1 := by
  simp [dispatchTo]
@[simp] theorem dispatchTo_ime (i : Source) (p : Addr) (s : State) : (dispatchTo i p s).block.ime = false := by
  simp [dispatchTo]
@[simp] theorem dispatchTo_eiPending (i : Source) (p : Addr) (s : State) :
    (dispatchTo i p s).block.eiPending = s.block.eiPending := by
  simp [dispatchTo]
@[simp] theorem dispatchTo_halted (i : Source) (p : Addr) (s : State) :
    (dispatchTo i p s).block.halted = s.block.halted := by
  simp [dispatchTo]
@[simp] theorem dispatchTo_bugLatch (i : Source) (p : Addr) (s : State) :
    (dispatchTo i p s).block.bugLatch = s.block.bugLatch := by
  simp [dispatchTo]

/-- A dispatch keeps memory in its canonical form. -/
theorem dispatchTo_wf {s : State} (h : s.env.mem.wf) (i : Source) (p : Addr) : (dispatchTo i p s).env.mem.wf :=
  push_wf (push_wf (s := s.withBlock (disableNow s.block)) h _) _

/-- The timer and mask elements of the block after a dispatch are those the two pushes leave. -/
theorem dispatchTo_block (i : Source) (p : Addr) (s : State) :
    (dispatchTo i p s).block = (push (lo p) (push (hi p) (s.withBlock (disableNow s.block)))).block := rfl

/-- The two stack slots of a dispatch. -/
theorem sub_one_sub_one (a : Addr) : a - 1 - 1 = a - 2 := by
  rw [BitVec.sub_sub]; rfl

/-- A write elsewhere on the bus leaves REQUEST alone (R52). -/
theorem memWrite_request {s : State} {a : Addr} (h : s.cfg.addrRequest ≠ a) (v : Byte) :
    (memWrite a v s).block.request = s.block.request := by
  rcases memWrite_cases a v s with ⟨r, hr, hw⟩ | ⟨-, hw⟩
  · rw [hw]
    have ha := addr_of_regAt hr
    cases r <;> first | rfl | exact absurd ha h
  · rw [hw]; rfl

/-- A dispatch clears no request bit on its own: only a push that lands on REQUEST writes there (R127). -/
theorem dispatchTo_request {s : State} (i : Source) (p : Addr) (h1 : s.cfg.addrRequest ≠ s.env.sp - 1)
    (h2 : s.cfg.addrRequest ≠ s.env.sp - 2) : (dispatchTo i p s).block.request = s.block.request := by
  rw [dispatchTo_block]
  unfold push
  rw [memWrite_request, State.withEnv_block, memWrite_request]
  · rfl
  · exact h1
  · simp only [State.withEnv_cfg, State.withEnv_env, memWrite_cfg, memWrite_sp, State.withBlock_cfg, State.withBlock_env,
      sub_one_sub_one]
    exact h2

/-- A dispatch whose two pushes land on no register, whole (R127). -/
theorem dispatchTo_of_memory {s : State} (i : Source) (p : Addr)
    (h : ∀ r : Reg, s.cfg.addr r ≠ s.env.sp - 1 ∧ s.cfg.addr r ≠ s.env.sp - 2) :
    dispatchTo i p s = { s with block := { s.block with ime := false }, env := { s.env with
      pc := vector i, sp := s.env.sp - 2,
      mem := (s.env.mem.set (s.env.sp - 1).toNat (hi p)).set (s.env.sp - 2).toNat (lo p) } } := by
  unfold dispatchTo
  rw [push_of_memory (s := s.withBlock (disableNow s.block)) (fun r => (h r).1),
    push_of_memory (s := { s.withBlock (disableNow s.block) with env := _ }) (by
      intro r
      show s.cfg.addr r ≠ s.env.sp - 1 - 1
      rw [sub_one_sub_one]
      exact (h r).2)]
  refine State.ext_fields rfl rfl ?_ rfl rfl
  show ({ s.env with pc := vector i, sp := s.env.sp - 1 - 1, mem := Memory.set _ (s.env.sp - 1 - 1).toNat _ } : Env) = _
  rw [sub_one_sub_one]; rfl

end Sys2Proof.Machine
end

