-- ==== Sys2Proof/Laws/PerInstr.lean ====
section
/-! SUPPORT. A law of every operation as syntax: field `op` of its word is the number the table of R71 gives it. -/

namespace Sys2Proof.Laws.OpField

/-- The number of an operation in the table of R71. -/
def number : Instr → BitVec 4
  | .rdDivider | .rdCounter | .rdReload | .rdControl | .rdRequest | .rdEnable => 0x0
  | .wrDivider _ | .wrCounter _ | .wrReload _ | .wrControl _ | .wrRequest _ | .wrEnable _ => 0x1
  | .raise _ => 0x2
  | .tick _ => 0x3
  | .pendvec => 0x4
  | .dispatch _ _ => 0x5
  | .enImm => 0x6
  | .disImm => 0x7
  | .enDly => 0x8
  | .resolve => 0x9
  | .sleep => 0xA
  | .step => 0xB
  | .reset => 0xC

def Statement (i : Instr) : Prop := ∀ c : Cfg, opField (encode c i) = number i

/-- Bit `i` of a field placed in a word. -/
theorem getLsbD_place (n : Nat) (v : BitVec n) (low i : Nat) :
    (place n v low).getLsbD i = (decide (i < 32) && !decide (i < low) && v.getLsbD (i - low)) := by
  simp only [place, BitVec.getLsbD_shiftLeft, BitVec.getLsbD_setWidth]
  by_cases h : i < 32
  · simp [h, show i - low < 32 by omega]
  · simp [h]

/-- Below bit 28 a field that ends there contributes nothing to `op`. -/
theorem getLsbD_place_top (n : Nat) (v : BitVec n) (low i : Nat) (h : low + n ≤ 28) :
    (place n v low).getLsbD (28 + i) = false := by
  rw [getLsbD_place, BitVec.getLsbD_of_ge v _ (by omega), Bool.and_false]

/-- The field `op` of a word is what was placed there. -/
theorem opField_place_or (op : BitVec 4) (x : Word) (h : ∀ i, i < 4 → x.getLsbD (28 + i) = false) :
    opField (place 4 op 28 ||| x) = op := by
  unfold opField
  apply BitVec.eq_of_getLsbD_eq
  intro i hi
  rw [BitVec.getLsbD_extractLsb', BitVec.getLsbD_or, h i hi, getLsbD_place, Nat.add_sub_cancel_left]
  simp [hi, show 28 + i < 32 by omega]

theorem opField_bare (op : BitVec 4) : opField (encodeBare op) = op := by
  have h := opField_place_or op 0#32 (fun i _ => by simp)
  rwa [BitVec.or_zero] at h

theorem opField_bus (op : BitVec 4) (a : Addr) (v : Byte) : opField (encodeBus op a v) = op := by
  rw [encodeBus, BitVec.or_assoc]
  refine opField_place_or op _ fun i _ => ?_
  rw [BitVec.getLsbD_or, getLsbD_place_top _ _ _ _ (by decide), getLsbD_place_top _ _ _ _ (by decide)]
  rfl

theorem rdDivider : Statement .rdDivider := fun _ => opField_bus _ _ _
theorem wrDivider (v : Byte) : Statement (.wrDivider v) := fun _ => opField_bus _ _ _
theorem rdCounter : Statement .rdCounter := fun _ => opField_bus _ _ _
theorem wrCounter (v : Byte) : Statement (.wrCounter v) := fun _ => opField_bus _ _ _
theorem rdReload : Statement .rdReload := fun _ => opField_bus _ _ _
theorem wrReload (v : Byte) : Statement (.wrReload v) := fun _ => opField_bus _ _ _
theorem rdControl : Statement .rdControl := fun _ => opField_bus _ _ _
theorem wrControl (v : Byte) : Statement (.wrControl v) := fun _ => opField_bus _ _ _
theorem rdRequest : Statement .rdRequest := fun _ => opField_bus _ _ _
theorem wrRequest (v : Byte) : Statement (.wrRequest v) := fun _ => opField_bus _ _ _
theorem rdEnable : Statement .rdEnable := fun _ => opField_bus _ _ _
theorem wrEnable (v : Byte) : Statement (.wrEnable v) := fun _ => opField_bus _ _ _
theorem raise (lines : BitVec 5) : Statement (.raise lines) := fun _ =>
  opField_place_or _ _ fun _ _ => getLsbD_place_top _ _ _ _ (by decide)
theorem tick (n : Nat) : Statement (.tick n) := fun _ =>
  opField_place_or _ _ fun _ _ => getLsbD_place_top _ _ _ _ (by decide)
theorem pendvec : Statement .pendvec := fun _ => opField_bare _
theorem dispatch (src : Source) (pc : Addr) : Statement (.dispatch src pc) := by
  intro c
  simp only [encode, encodeDispatch, number, BitVec.or_assoc]
  refine opField_place_or _ _ fun i _ => ?_
  rw [BitVec.getLsbD_or, getLsbD_place_top _ _ _ _ (by decide), getLsbD_place_top _ _ _ _ (by decide)]
  rfl
theorem enImm : Statement .enImm := fun _ => opField_bare _
theorem disImm : Statement .disImm := fun _ => opField_bare _
theorem enDly : Statement .enDly := fun _ => opField_bare _
theorem resolve : Statement .resolve := fun _ => opField_bare _
theorem sleep : Statement .sleep := fun _ => opField_bare _
theorem step : Statement .step := fun _ => opField_bare _
theorem reset : Statement .reset := fun _ => opField_bare _

end Sys2Proof.Laws.OpField
end

