-- ==== Sys2Proof/Laws/Timer.lean ====
section
/-! SUPPORT. The timer: the rates and the loop of R110, one unfolding at a time. -/

namespace Sys2Proof.Machine

/-- The four rates, and nothing else (R111). -/
theorem rate_cases (sel : BitVec 2) : rate sel = 1024 ∨ rate sel = 16 ∨ rate sel = 64 ∨ rate sel = 256 := by
  unfold rate; split <;> [skip; split <;> [skip; split]] <;> simp

theorem rate_pos (sel : BitVec 2) : 0 < rate sel := by
  rcases rate_cases sel with h | h | h | h <;> omega

theorem rate_le (sel : BitVec 2) : rate sel ≤ 1024 := by
  rcases rate_cases sel with h | h | h | h <;> omega

@[simp] theorem increment_acc (per : Nat) (reload : Byte) (l : TickLoop) :
    (increment per reload l).acc = l.acc - per := by
  unfold increment; split <;> rfl

@[simp] theorem tickLoop_zero (per : Nat) (reload : Byte) (l : TickLoop) : tickLoop per reload 0 l = l := rfl

theorem tickLoop_done {per : Nat} {reload : Byte} {l : TickLoop} (h : l.acc < per) (fuel : Nat) :
    tickLoop per reload fuel l = l := by
  cases fuel with
  | zero => rfl
  | succ fuel => simp only [tickLoop, if_neg (Nat.not_le.mpr h)]

theorem tickLoop_more {per : Nat} {reload : Byte} {l : TickLoop} (h : per ≤ l.acc) (fuel : Nat) :
    tickLoop per reload (fuel + 1) l = tickLoop per reload fuel (increment per reload l) := by
  simp only [tickLoop, if_pos h]

/-- More fuel than `acc` changes nothing: the loop has ended (R112). -/
theorem tickLoop_fuel {per : Nat} (hp : 0 < per) (reload : Byte) (fuel : Nat) (l : TickLoop) (h : l.acc ≤ fuel) (k : Nat) :
    tickLoop per reload (fuel + k) l = tickLoop per reload fuel l := by
  induction fuel generalizing l with
  | zero => rw [tickLoop_done (by omega), tickLoop_done (by omega)]
  | succ fuel ih =>
    by_cases hl : per ≤ l.acc
    · rw [Nat.succ_add, tickLoop_more hl, tickLoop_more hl, ih]
      simp only [increment_acc]; omega
    · rw [tickLoop_done (by omega), tickLoop_done (by omega)]

/-- The selector and the enable bit are untouched by a tick (R110). -/
@[simp] theorem selector_tick (n : Nat) (b : Block) : selector (tick n b) = selector b := by simp [selector]
@[simp] theorem timerEnabled_tick (n : Nat) (b : Block) : timerEnabled (tick n b) = timerEnabled b := by
  simp [timerEnabled]

/-- A tick of an enabled timer (R110). -/
theorem tick_of_enabled {b : Block} (h : timerEnabled b = true) (n : Nat) :
    tick n b = { b with counter := b.counter + BitVec.ofNat 16 n, sub := BitVec.ofNat 10 (tickRun n b).acc,
                        counterReg := (tickRun n b).counterReg } := by
  rw [tick, if_pos h]

/-- A tick of a disabled timer advances the free-running counter alone (R110). -/
theorem tick_of_disabled {b : Block} (h : timerEnabled b = false) (n : Nat) :
    tick n b = { b with counter := b.counter + BitVec.ofNat 16 n } := by
  rw [tick, h]; rfl

/-- The overflow of an enabled timer is the one its loop saw (R110). -/
theorem tickOverflow_of_enabled {b : Block} (h : timerEnabled b = true) (n : Nat) :
    tickOverflow n b = (tickRun n b).ov := by
  rw [tickOverflow, if_pos h]

/-- A disabled timer reports no overflow (R110). -/
theorem tickOverflow_of_disabled {b : Block} (h : timerEnabled b = false) (n : Nat) : tickOverflow n b = false := by
  simp [tickOverflow, h]

/-- An overflow depends on nothing but the four timer elements below the divider (R110). -/
theorem tickOverflow_congr {b b' : Block} (h1 : b.sub = b'.sub) (h2 : b.counterReg = b'.counterReg)
    (h3 : b.reloadReg = b'.reloadReg) (h4 : b.control = b'.control) (n : Nat) : tickOverflow n b = tickOverflow n b' := by
  unfold tickOverflow tickRun timerEnabled selector
  rw [h1, h2, h3, h4]

end Sys2Proof.Machine
end

