-- ==== Sys2Proof/Laws/Scheduler.lean ====
section
/-! SUPPORT. The scheduler step: the executor's run, the three kinds of step, and what each part leaves alone. -/

namespace Sys2Proof.Machine

@[simp] theorem applyAction_cfg (s : State) (x : ExecAction) : (applyAction s x).cfg = s.cfg := by
  cases x <;> simp [applyAction]
@[simp] theorem applyAction_port (s : State) (x : ExecAction) : (applyAction s x).port = s.port := by
  cases x <;> simp [applyAction]
@[simp] theorem applyAction_result (s : State) (x : ExecAction) : (applyAction s x).result = s.result := by
  cases x <;> simp [applyAction]
@[simp] theorem applyAction_calls (s : State) (x : ExecAction) : (applyAction s x).env.calls = s.env.calls := by
  cases x <;> simp [applyAction]
@[simp] theorem applyAction_answers (s : State) (x : ExecAction) : (applyAction s x).env.answers = s.env.answers := by
  cases x <;> simp [applyAction]
@[simp] theorem applyAction_refetch (s : State) (x : ExecAction) : (applyAction s x).env.refetch = s.env.refetch := by
  cases x <;> simp [applyAction]

/-- What every action of the executor keeps, its whole run keeps. -/
theorem foldl_applyAction_keeps {P : State → Prop} (h : ∀ s x, P s → P (applyAction s x)) (l : List ExecAction) :
    ∀ s, P s → P (l.foldl applyAction s) := by
  induction l with
  | nil => exact fun _ hs => hs
  | cons x l ih => exact fun s hs => ih _ (h s x hs)

/-- The executor's run leaves the configuration, the port, the result and the count of calls alone. -/
theorem runAnswer_frame (a : ExecAnswer) (s : State) :
    (runAnswer a s).cfg = s.cfg ∧ (runAnswer a s).port = s.port ∧ (runAnswer a s).result = s.result ∧
    (runAnswer a s).env.calls = s.env.calls ∧ (runAnswer a s).env.answers = s.env.answers ∧
    (runAnswer a s).env.refetch = s.env.refetch ∧ (runAnswer a s).env.pc = a.pc ∧ (runAnswer a s).env.sp = a.sp := by
  have h := foldl_applyAction_keeps
    (P := fun t => t.cfg = s.cfg ∧ t.port = s.port ∧ t.result = s.result ∧ t.env.calls = s.env.calls ∧
      t.env.answers = s.env.answers ∧ t.env.refetch = s.env.refetch)
    (fun t x ht => by simpa using ht) a.actions s ⟨rfl, rfl, rfl, rfl, rfl, rfl⟩
  exact ⟨h.1, h.2.1, h.2.2.1, h.2.2.2.1, h.2.2.2.2.1, h.2.2.2.2.2, rfl, rfl⟩

/-- A scheduler step is an idle step, a wake step or a running step (R143). -/
theorem schedulerStep_cases (s : State) :
    (s.block.halted = true ∧ pend5 s.block = 0 ∧ schedulerStep s = idleStep s) ∨
    (s.block.halted = true ∧ pend5 s.block ≠ 0 ∧ schedulerStep s = wakeStep s) ∨
    (s.block.halted = false ∧ schedulerStep s = runningStep s) := by
  unfold schedulerStep
  cases hh : s.block.halted with
  | false => exact .inr (.inr ⟨rfl, rfl⟩)
  | true =>
    by_cases hp : pend5 s.block = 0
    · exact .inl ⟨rfl, hp, by rw [if_pos rfl, if_pos hp]⟩
    · exact .inr (.inl ⟨rfl, hp, by rw [if_pos rfl, if_neg hp]⟩)

@[simp] theorem advanceTimer_cfg (n : Nat) (s : State) : (advanceTimer n s).cfg = s.cfg := rfl
@[simp] theorem advanceTimer_env (n : Nat) (s : State) : (advanceTimer n s).env = s.env := rfl
@[simp] theorem advanceTimer_port (n : Nat) (s : State) : (advanceTimer n s).port = s.port := rfl
@[simp] theorem advanceTimer_block (n : Nat) (s : State) :
    (advanceTimer n s).block = foldOverflow (tickOverflow n s.block) (tick n s.block) := rfl

@[simp] theorem resolveArmed_cfg (armed : Bool) (s : State) : (resolveArmed armed s).cfg = s.cfg := by
  cases armed <;> rfl
@[simp] theorem resolveArmed_env (armed : Bool) (s : State) : (resolveArmed armed s).env = s.env := by
  cases armed <;> rfl
@[simp] theorem resolveArmed_port (armed : Bool) (s : State) : (resolveArmed armed s).port = s.port := by
  cases armed <;> rfl
@[simp] theorem resolveArmed_block (armed : Bool) (s : State) :
    (resolveArmed armed s).block = if armed then resolveEnable s.block else s.block := by
  cases armed <;> rfl

/-- The evaluation dispatches the source found, or does nothing but report the cost (R143, step 6). -/
theorem evaluate_cases (base : Nat) (s : State) :
    (∃ i, pendingSource s.block = some i ∧
      evaluate base s = (dispatchTo i s.env.pc s).withResult (.cost (base + dispatchCost))) ∨
    (pendingSource s.block = none ∧ evaluate base s = s.withResult (.cost base)) := by
  unfold evaluate
  cases h : pendingSource s.block with
  | some i => exact .inl ⟨i, rfl, rfl⟩
  | none => exact .inr ⟨rfl, rfl⟩

/-- What every action in the list keeps, running the list keeps. -/
theorem foldl_applyAction_keeps_of_mem {P : State → Prop} (l : List ExecAction)
    (h : ∀ s, ∀ x ∈ l, P s → P (applyAction s x)) : ∀ s, P s → P (l.foldl applyAction s) := by
  induction l with
  | nil => exact fun _ hs => hs
  | cons x l ih =>
    exact fun s hs => ih (fun s y hy => h s y (List.mem_cons_of_mem _ hy)) _ (h s x List.mem_cons_self hs)

/-- The launch state's answer is the one given (R11). -/
theorem nextAnswer_of_cons {s : State} {a : ExecAnswer} {rest : List ExecAnswer} (h : s.env.answers = a :: rest)
    (refetch : Bool) : nextAnswer refetch s = a := by
  simp [nextAnswer, h]

/-- A running step is the executor's run and the conclusion of the step (R143, R144). -/
theorem runningStep_eq (s : State) : runningStep s =
    concludeStep s.block.eiPending
      (nextAnswer s.block.bugLatch { s with block := { s.block with bugLatch := false } }).cost
      (execute s.block.bugLatch { s with block := { s.block with bugLatch := false } }) := rfl

/-- A wake step is the conclusion of the step from the state awake (R149). -/
theorem wakeStep_eq (s : State) : wakeStep s =
    concludeStep s.block.eiPending 4 { s with block := { s.block with halted := false } } := rfl

/-- The request mask after the timer's advance in a step (R143, step 4). -/
def requestAfter (n : Nat) (b : Block) : Byte := if tickOverflow n b then b.request ||| 0x04 else b.request

/-- The pending value the evaluation of a step sees (R143). -/
theorem pend5_conclude (armed : Bool) (base : Nat) (u : State) :
    pend5 (resolveArmed armed (advanceTimer base u)).block = requestAfter base u.block &&& u.block.enable &&& 0x1F := by
  cases armed <;> simp [pend5, requestAfter]

/-- The conclusion of a step leaves all this alone (R143). -/
theorem concludeStep_frame (armed : Bool) (base : Nat) (u : State) :
    (concludeStep armed base u).block.halted = u.block.halted ∧
    (concludeStep armed base u).block.bugLatch = u.block.bugLatch ∧
    (concludeStep armed base u).block.eiPending = (!armed && u.block.eiPending) ∧
    (concludeStep armed base u).env.calls = u.env.calls ∧ (concludeStep armed base u).env.refetch = u.env.refetch ∧
    (concludeStep armed base u).env.answers = u.env.answers ∧ (concludeStep armed base u).cfg = u.cfg ∧
    (concludeStep armed base u).port = u.port := by
  unfold concludeStep
  rcases evaluate_cases base (resolveArmed armed (advanceTimer base u)) with ⟨i, -, h⟩ | ⟨-, h⟩ <;> rw [h] <;>
    cases armed <;> simp

/-- The conclusion of a step either reports the base cost, or dispatches and reports 20 more (R143, R146). -/
theorem concludeStep_cases (armed : Bool) (base : Nat) (u : State) :
    (((u.block.ime || (armed && u.block.eiPending)) = false ∨ requestAfter base u.block &&& u.block.enable &&& 0x1F = 0) ∧
      (concludeStep armed base u).result = .cost base ∧ (concludeStep armed base u).env = u.env ∧
      (concludeStep armed base u).block.ime = (u.block.ime || (armed && u.block.eiPending)) ∧
      (concludeStep armed base u).block.request = requestAfter base u.block ∧
      (concludeStep armed base u).block.enable = u.block.enable) ∨
    (∃ i, (u.block.ime || (armed && u.block.eiPending)) = true ∧
      requestAfter base u.block &&& u.block.enable &&& 0x1F ≠ 0 ∧
      pendingSource (resolveArmed armed (advanceTimer base u)).block = some i ∧
      concludeStep armed base u =
        (dispatchTo i u.env.pc (resolveArmed armed (advanceTimer base u))).withResult (.cost (base + 20)) ∧
      (concludeStep armed base u).block.ime = false ∧ (concludeStep armed base u).env.pc = vector i ∧
      (concludeStep armed base u).env.sp = u.env.sp - 2) := by
  rcases evaluate_cases base (resolveArmed armed (advanceTimer base u)) with ⟨i, hi, h⟩ | ⟨hn, h⟩
  · refine .inr ⟨i, ?_, ?_, hi, ?_, ?_, ?_, ?_⟩
    · rw [← ime_of_pendingSource hi]; cases armed <;> simp
    · intro hz
      have hp := pend5_of_pendingSource hi
      rw [pend5_conclude, hz] at hp
      simp at hp
    · unfold concludeStep
      rw [h, resolveArmed_env, advanceTimer_env]; rfl
    · unfold concludeStep; rw [h]; simp
    · unfold concludeStep; rw [h]; simp
    · unfold concludeStep; rw [h]; simp; exact sub_one_sub_one _
  · rw [pendingSource_eq_none_iff, pend5_conclude] at hn
    refine .inl ⟨?_, ?_, ?_, ?_, ?_, ?_⟩
    · rcases hn with hn | hn
      · left; rw [← hn]; cases armed <;> simp
      · exact .inr hn
    all_goals unfold concludeStep; rw [h]
    · rfl
    · simp
    all_goals cases armed <;> simp [requestAfter]

/-- One step of a run of the machine. -/
theorem run_succ (M : Host.Core) (k : Nat) {s t : M.State} (h : M.step s = .next t) : M.run (k + 1) s = M.run k t := by
  rw [Host.Core.run, h]

/-- Past the launch state's answers the executor does what the free value says (R11). -/
theorem nextAnswer_of_nil {s : State} (h : s.env.answers = []) (refetch : Bool) :
    nextAnswer refetch s = Config.execute s.cfg s.env.calls (execView refetch s) := by
  simp [nextAnswer, h]

/-- An answer without actions only sets `pc` and `sp` (R11). -/
@[simp] theorem runAnswer_nil (pc sp : Addr) (cost : Nat) (s : State) :
    runAnswer ⟨[], pc, sp, cost⟩ s = { s with env := { s.env with pc := pc, sp := sp } } := rfl

/-- The actions of an answer are applied in the order issued (R144). -/
theorem runAnswer_cons (x : ExecAction) (xs : List ExecAction) (pc sp : Addr) (cost : Nat) (s : State) :
    runAnswer ⟨x :: xs, pc, sp, cost⟩ s = runAnswer ⟨xs, pc, sp, cost⟩ (applyAction s x) := rfl

/-- The fold of an overflow is an OR, whether or not one occurred (R143, R64). -/
theorem requestAfter_eq (n : Nat) (b : Block) :
    requestAfter n b = b.request ||| (if tickOverflow n b then 0x04 else 0) := by
  unfold requestAfter
  cases tickOverflow n b <;> simp

end Sys2Proof.Machine
end

