-- ==== Sys2Proof/Tests/Slice0.lean ====
section
/-! SUPPORT. The model's own tests. Expected results come from 95_test_vectors.md, named by vector; a witness theorem shows
values that meet the hypotheses of a statement of Certificates/Slice0/Obligations.lean. -/

open Sys2Proof Sys2Proof.Machine

namespace Sys2Proof.Tests

/-- The block right after reset. -/
def b0 : Block := State.reset.block

/-- A state: the reset state with another block. -/
def at0 (b : Block) : State := State.reset.withBlock b

/-- A state with a launch environment: `pc`, `sp` and the executor's answers. -/
def launch (b : Block) (pc sp : Addr) (answers : List ExecAnswer) : State :=
  (at0 b).withEnv { State.reset.env with pc := pc, sp := sp, answers := answers }

/-- A state under another configuration. -/
def under (c : Cfg) (s : State) : State := { s with cfg := c }

/-- The next state of an outcome. -/
def next? : Host.Outcome State Fault Refusal → Option State
  | .next t => some t
  | .fault _ => none
  | .refused _ => none

/-- A field of the state an operation leaves. -/
def leaves {α : Type} (i : Instr) (s : State) (f : State → α) : Option α := (next? (exec i s)).map f

/-- Every register's address differs from the two stack slots below `sp`: a decidable form for the witnesses. -/
def clearOf (c : Cfg) (sp : Addr) : Bool := Reg.all.all (fun r => decide (c.addr r ≠ sp - 1) && decide (c.addr r ≠ sp - 2))

theorem clearOf_spec {c : Cfg} {sp : Addr} (h : clearOf c sp = true) (r : Reg) : c.addr r ≠ sp - 1 ∧ c.addr r ≠ sp - 2 := by
  have hr := List.all_eq_true.mp h r (Reg_mem_all r)
  simpa using hr

/-! ## WellFormed -/

theorem test_wf_tick_refused : Instr.wellFormed (.tick 268435456) = false := by decide
theorem test_wf_tick_accepted : Instr.wellFormed (.tick 268435455) = true := by decide
theorem test_cfg_wf : Cfg.default.wf := by decide
theorem test_cfg_not_wf : ¬ Cfg.wf { Cfg.default with addrEnable := 0xFF0F } := by decide

/-! ## Decode: the words of V1, bit by bit from the format tables, one for every constructor -/

theorem test_decode_rdDivider : decode Cfg.default 0b0000_1111111100000100_00000000_0000 = .ok .rdDivider := by decide
theorem test_decode_wrDivider : decode Cfg.default 0b0001_1111111100000100_01110111_0000 = .ok (.wrDivider 0x77) := by decide
theorem test_decode_rdCounter : decode Cfg.default 0b0000_1111111100000101_00000000_0000 = .ok .rdCounter := by decide
theorem test_decode_wrCounter : decode Cfg.default 0b0001_1111111100000101_11111111_0000 = .ok (.wrCounter 0xFF) := by decide
theorem test_decode_rdReload : decode Cfg.default 0b0000_1111111100000110_00000000_0000 = .ok .rdReload := by decide
theorem test_decode_wrReload : decode Cfg.default 0b0001_1111111100000110_01010000_0000 = .ok (.wrReload 0x50) := by decide
theorem test_decode_rdControl : decode Cfg.default 0b0000_1111111100000111_00000000_0000 = .ok .rdControl := by decide
theorem test_decode_wrControl : decode Cfg.default 0b0001_1111111100000111_11111101_0000 = .ok (.wrControl 0xFD) := by decide
theorem test_decode_rdRequest : decode Cfg.default 0b0000_1111111100001111_00000000_0000 = .ok .rdRequest := by decide
theorem test_decode_wrRequest : decode Cfg.default 0b0001_1111111100001111_11100100_0000 = .ok (.wrRequest 0xE4) := by decide
theorem test_decode_rdEnable : decode Cfg.default 0b0000_1111111111111111_00000000_0000 = .ok .rdEnable := by decide
theorem test_decode_wrEnable : decode Cfg.default 0b0001_1111111111111111_00011111_0000 = .ok (.wrEnable 0x1F) := by decide
theorem test_decode_raise : decode Cfg.default 0b0010_0000000000000000000_10100_0000 = .ok (.raise 0b10100) := by decide
theorem test_decode_tick : decode Cfg.default 0b0011_1111111111111111111111111111 = .ok (.tick 268435455) := by decide
theorem test_decode_pendvec : decode Cfg.default 0b0100_0000000000000000000000000000 = .ok .pendvec := by decide
theorem test_decode_dispatch :
    decode Cfg.default 0b0101_0001001000110100_00000_010_0000 = .ok (.dispatch .timerOverflow 0x1234) := by decide
theorem test_decode_enImm : decode Cfg.default 0b0110_0000000000000000000000000000 = .ok .enImm := by decide
theorem test_decode_disImm : decode Cfg.default 0b0111_0000000000000000000000000000 = .ok .disImm := by decide
theorem test_decode_enDly : decode Cfg.default 0b1000_0000000000000000000000000000 = .ok .enDly := by decide
theorem test_decode_resolve : decode Cfg.default 0b1001_0000000000000000000000000000 = .ok .resolve := by decide
theorem test_decode_sleep : decode Cfg.default 0b1010_0000000000000000000000000000 = .ok .sleep := by decide
theorem test_decode_step : decode Cfg.default 0b1011_0000000000000000000000000000 = .ok .step := by decide
theorem test_decode_reset : decode Cfg.default 0b1100_0000000000000000000000000000 = .ok .reset := by decide

/-- V1: the illegal words. -/
theorem test_decode_illegal :
    ([0x0FF04010, 0x1FF04001, 0x40000001, 0x50000050, 0x50000800, 0x20000200, 0xD0000000, 0xE0000000, 0xF0000000] :
      List Word).all (fun w => decide (decode Cfg.default w = .error .illegal)) = true := by decide

/-- V1: well-formed bus words at no register. -/
theorem test_decode_notMine :
    decode Cfg.default 0x00000000 = .error .notMine ∧ decode Cfg.default 0x1FF08120 = .error .notMine := by decide

/-- Addresses are a parameter (R74): moved registers decode at their new addresses, and no longer at the old ones. -/
theorem test_decode_parameter :
    decode { Cfg.default with addrDivider := 0x0104 } 0x00104000 = .ok .rdDivider ∧
    decode { Cfg.default with addrDivider := 0x0104 } 0x0FF04000 = .error .notMine := by decide

/-! ## Register Bank -/

/-- S1 -/
theorem test_rdDivider : leaves .rdDivider (at0 { b0 with counter := 0x13F0 }) (·.result) = some (.byte 0x13) := by decide
/-- S2 -/
theorem test_wrDivider : leaves (.wrDivider 0x77) (at0 { b0 with counter := 0xAB12, sub := 900 }) (·.block) = some b0 := by
  decide
/-- V2.1 -/
theorem test_rdCounter : leaves .rdCounter (at0 { b0 with counterReg := 0xFF }) (·.result) = some (.byte 0xFF) := by decide
/-- V2.1: no event from a write. -/
theorem test_wrCounter : leaves (.wrCounter 0xFF) (at0 b0) (fun t => (t.block.counterReg, t.block.request)) =
    some (0xFF, 0x00) := by decide
/-- V2.2 -/
theorem test_rdReload : leaves .rdReload (at0 { b0 with reloadReg := 0x50 }) (·.result) = some (.byte 0x50) := by decide
/-- V2.2 -/
theorem test_wrReload : leaves (.wrReload 0x50) (at0 b0) (fun t => (t.block.reloadReg, t.block.counterReg)) =
    some (0x50, 0x00) := by decide
/-- V2.4 -/
theorem test_rdControl : leaves .rdControl
    (under { Cfg.default with controlReadHigh := 0b11111 } (at0 { b0 with control := 0b010 })) (·.result) =
    some (.byte 0xFA) := by decide
/-- V2.3 -/
theorem test_wrControl : leaves (.wrControl 0xFD) (at0 b0) (·.block.control) = some 0b101 := by decide
/-- V2.7 -/
theorem test_rdRequest : leaves .rdRequest
    (under { Cfg.default with highBitsForceOne := true } (at0 { b0 with request := 0x04 })) (·.result) =
    some (.byte 0xE4) := by decide
/-- V2.6: a plain read keeps the stored high bits. -/
theorem test_rdRequest_plain : leaves .rdRequest (at0 { b0 with request := 0xE4 }) (·.result) = some (.byte 0xE4) := by decide
/-- V2.8 -/
theorem test_wrRequest : leaves (.wrRequest 0x10) (at0 { b0 with request := 0x14 }) (·.block.request) = some 0x10 := by decide
/-- V2.7 -/
theorem test_rdEnable : leaves .rdEnable
    (under { Cfg.default with highBitsForceOne := true } (at0 b0)) (·.result) = some (.byte 0xE0) := by decide
/-- V2.14 -/
theorem test_wrEnable : leaves (.wrEnable 0x1F) (at0 b0) (fun t => (t.block.enable, t.block.ime)) =
    some (0x1F, false) := by decide
/-- V2.12 -/
theorem test_raise_keeps_high : leaves (.raise 0b11111) (at0 { b0 with request := 0xE0 }) (·.block.request) = some 0xFF := by
  decide
/-- V2.10 -/
theorem test_raise : leaves (.raise 0b10000) (at0 { b0 with request := 0x04 }) (·.block.request) = some 0x14 := by decide

/-! ## TimerUnit -/

/-- S4: the 256th increment from zeros at rate 1024 overflows. -/
theorem test_tick_rate_1024 : leaves (.tick 262144) (at0 { b0 with control := 0b100 })
    (fun t => (t.block.counter, t.block.sub, t.block.counterReg, t.result)) =
    some (0x0000, 0, 0x00, .overflow true) := by decide +kernel
/-- V3.3: a sub-counter left by a slower rate bursts. -/
theorem test_tick_burst : leaves (.tick 0) (at0 { b0 with control := 0b101, counterReg := 0x10, sub := 1000 })
    (fun t => (t.block.counter, t.block.sub, t.block.counterReg, t.result)) =
    some (0, 8, 0x4E, .overflow false) := by decide +kernel

/-! ## InterruptController -/

/-- V4.5 -/
theorem test_pendvec : leaves .pendvec (at0 { b0 with ime := true, request := 0x1A, enable := 0x18 }) (·.result) =
    some (.source (some .serialComplete)) := by decide
/-- V4.3 -/
theorem test_pendvec_high_bits : leaves .pendvec (at0 { b0 with ime := true, request := 0xE0, enable := 0xFF }) (·.result) =
    some (.source none) := by decide
/-- V4.8: the first push lands on ENABLE. -/
theorem test_dispatch_first_on_enable : leaves (.dispatch .displayVBlank 0xABCD)
    (launch { b0 with ime := true, enable := 0x1F } 0 0x0000 []) (fun t => (t.block, t.env, t.result)) =
    some ({ b0 with enable := 0xAB },
      { pc := 0x0040, sp := 0xFFFE, mem := [(0xFFFE, 0xCD)], answers := [], calls := 0, refetch := false, reads := [] },
      .cost 20) := by decide
/-- V4.9: the second push lands on ENABLE. -/
theorem test_dispatch_second_on_enable : leaves (.dispatch .inputEdge 0xFFFF) (launch b0 0 0x0001 [])
    (fun t => (t.block.enable, t.env.mem, t.env.sp, t.env.pc)) =
    some (0xFF, [(0x0000, 0xFF)], 0xFFFF, 0x0060) := by decide
/-- S8 -/
theorem test_enImm : leaves .enImm (at0 { b0 with eiPending := true }) (fun t => (t.block.ime, t.block.eiPending)) =
    some (true, false) := by decide
/-- V4.11 -/
theorem test_disImm : leaves .disImm (at0 { b0 with ime := true, eiPending := true })
    (fun t => (t.block.ime, t.block.eiPending)) = some (false, true) := by decide
/-- V4.13 -/
theorem test_enDly : leaves .enDly (at0 b0) (fun t => (t.block.ime, t.block.eiPending)) = some (false, true) := by decide
/-- V4.13 -/
theorem test_resolve : leaves .resolve (at0 { b0 with eiPending := true }) (fun t => (t.block.ime, t.block.eiPending)) =
    some (true, false) := by decide
/-- V4.12 -/
theorem test_resolve_unarmed : leaves .resolve (at0 b0) (·.block) = some b0 := by decide

/-! ## StepScheduler -/

/-- V5.10, first step's `SLEEP`. -/
theorem test_sleep_arms_latch : leaves .sleep
    (under { Cfg.default with haltBugEnable := true } (at0 { b0 with enable := 0x10 }))
    (fun t => (t.block.halted, t.block.bugLatch)) = some (true, true) := by decide
/-- V5.12: with Master Enable set the latch stays clear. -/
theorem test_sleep_with_ime : leaves .sleep
    (under { Cfg.default with haltBugEnable := true } (at0 { b0 with enable := 0x10, ime := true }))
    (fun t => (t.block.halted, t.block.bugLatch)) = some (true, false) := by decide
/-- P4, command 6: bus accesses in order, the armed resolve, then the dispatch of source 4 in the same step. -/
theorem test_step_resolves_and_dispatches : leaves .step
    (launch { b0 with counter := 0x0008, request := 0x14, enable := 0x1F, eiPending := true } 0x0051 0xDFFE
      [{ actions := [.read 0xFF0F, .write 0xFF0F 0x10], pc := 0x0053, sp := 0xDFFE, cost := 12 }])
    (fun t => (t.block, t.env, t.result)) =
    some ({ b0 with counter := 0x0014, request := 0x10, enable := 0x1F },
      { pc := 0x0060, sp := 0xDFFC, mem := [(0xDFFC, 0x53)], answers := [], calls := 1, refetch := false, reads := [0x14] },
      .cost 32) := by decide
/-- S9: a wake with Master Enable set dispatches for 24, and the timer is given 4. -/
theorem test_step_wake : leaves .step
    (launch { b0 with halted := true, ime := true, enable := 0x04, request := 0x04 } 0x0201 0xD000 [])
    (fun t => (t.block, t.env, t.result)) =
    some ({ b0 with counter := 0x0004, enable := 0x04, request := 0x04 },
      { pc := 0x0050, sp := 0xCFFE, mem := [(0xCFFE, 0x01), (0xCFFF, 0x02)], answers := [], calls := 0, refetch := false,
        reads := [] }, .cost 24) := by decide
/-- V5.13 -/
theorem test_reset : leaves .reset (at0 {
      counter := 0x1234, sub := 9, counterReg := 1, reloadReg := 2, control := 5, request := 0x14, enable := 0x1F,
      ime := true, eiPending := true, halted := true, bugLatch := true }) (·.block) = some b0 := by decide

/-! ## The command port -/

/-- R10, R80: an illegal word changes nothing but the report. -/
theorem test_step_illegal : next? (step (State.reset.withPort [0xD0000000])) =
    some (State.reset.withResult (.refused .illegal)) := by decide
/-- The host's placement of a word runs exactly that operation. -/
theorem test_withFetchWord : next? (step (State.reset.withFetchWord 32 0x1FF05FF0)) =
    some (at0 { b0 with counterReg := 0xFF }) := by decide

/-! ## Witnesses of the hypotheses of the statements -/

theorem wit_StepRunsDecodedCommand :
    (State.reset.withPort [0x40000000, 0xB0000000]).port = 0x40000000 :: [0xB0000000] ∧
    decode (State.reset.withPort [0x40000000, 0xB0000000]).cfg 0x40000000 = .ok .pendvec := by decide

theorem wit_DecodeInvertsEncode : Cfg.default.wf ∧ (Instr.tick 268435455).wellFormed = true := by decide

theorem wit_EncodeInvertsDecode :
    decode Cfg.default 0x5FFFF040 = .ok (.dispatch .inputEdge 0xFFFF) ∧ decode Cfg.default 0x3FFFFFFF = .ok (.tick 268435455) := by
  decide

/-- One word for each clause of the statement, at the edge of its range, and each is the port's oldest word. -/
theorem wit_IllegalWordsRefused :
    ([0xD0000000, 0xE0000000, 0xFFFFFFFF, 0x40000001, 0x68000000, 0xC0000001, 0x0FF04001, 0x1FF04008, 0x20000001, 0x50000008,
      0x0FF04010, 0x0FF04800, 0x20000200, 0x28000000, 0x50000080, 0x50000800, 0x50000050, 0x50000070] : List Word).all
      (fun w => decide (decode Cfg.default w = .error .illegal) &&
        decide ((State.reset.withPort [w]).port = w :: [])) = true := by decide

theorem wit_ForeignBusAccessNotMine :
    ([0x00000000, 0x0FF03000, 0x0FF08000, 0x0FF0E000, 0x0FF10000, 0x0FFFE000, 0x1FF03FF0, 0x1FFFE000] : List Word).all
      (fun w => decide (decode Cfg.default w = .error .notMine) &&
        decide ((State.reset.withPort [w]).port = w :: [])) = true := by decide

/-- Both clauses, the second at the last increment before an overflow, at the first overflow, and past it. -/
theorem wit_TickClosedForm :
    b0.control.getLsbD 2 = false ∧
    ({ b0 with control := 0b101 } : Block).control.getLsbD 2 = true ∧
    rate (({ b0 with control := 0b101 } : Block).control.extractLsb' 0 2) = 16 ∧
    leaves (.tick 4080) (at0 { b0 with control := 0b101, reloadReg := 0xF0 }) (fun t => (t.block.counterReg, t.result)) =
      some (0xFF, .overflow false) ∧
    leaves (.tick 4096) (at0 { b0 with control := 0b101, reloadReg := 0xF0 }) (fun t => (t.block.counterReg, t.result)) =
      some (0xF0, .overflow true) ∧
    leaves (.tick 4336) (at0 { b0 with control := 0b101, reloadReg := 0xF0 }) (fun t => (t.block.counterReg, t.result)) =
      some (0xFF, .overflow true) := by decide +kernel

/-- The enabled timer; a full period between two overflows; and an overflow whose cycles end with it, after which the next
one comes 128 increments of 16 cycles later and not a cycle before. -/
theorem wit_TimerPeriods :
    (let b := tick 24 { b0 with control := 0b101, sub := 8, counterReg := 0xFE, reloadReg := 0x80 }
     (8 + 24) / rate 0b01 = 256 - 0xFE ∧ 8 + 24 = (256 - 0xFE) * rate 0b01 ∧
     (b.counterReg, b.sub) = (0x80, 0) ∧ tickOverflow 2047 b = false ∧ tickOverflow 2048 b = true) ∧
    ({ b0 with control := 0b100 } : Block).control.getLsbD 2 = true ∧
    ({ b0 with control := 0b111, counterReg := 0xFF, reloadReg := 0xFF } : Block).control.getLsbD 2 = true ∧
    ({ b0 with control := 0b111, counterReg := 0xFF, reloadReg := 0xFF } : Block).counterReg =
      ({ b0 with control := 0b111, counterReg := 0xFF, reloadReg := 0xFF } : Block).reloadReg ∧
    leaves (.tick 255) (at0 { b0 with control := 0b111, counterReg := 0xFF, reloadReg := 0xFF }) (·.result) =
      some (.overflow false) ∧
    leaves (.tick 256) (at0 { b0 with control := 0b111, counterReg := 0xFF, reloadReg := 0xFF }) (·.result) =
      some (.overflow true) := by decide +kernel

theorem wit_TimerLaws :
    [100, 100, 56].sum = 256 ∧ b0.control.getLsbD 2 = false ∧
    tickOverflow 16 { b0 with control := 0b101, counterReg := 0xFF, reloadReg := 0x50 } = true := by decide +kernel

theorem wit_PriorityEvaluation :
    pendingSource { b0 with ime := true, request := 0x10, enable := 0x10 } = some .inputEdge ∧
    pendingSource { b0 with ime := true, request := 0xE0, enable := 0xFF } = none ∧
    pendingSource { b0 with request := 0x1F, enable := 0x1F } = none := by decide

/-- The lowest and the highest stack pointer whose two slots are both memory. -/
theorem wit_DispatchEntersHandler :
    (launch b0 0 0x0002 []).env.mem.wf ∧ (launch b0 0 0xFFFF []).env.mem.wf ∧
    (∀ r : Reg, Cfg.default.addr r ≠ 0x0002 - 1 ∧ Cfg.default.addr r ≠ 0x0002 - 2) ∧
    (∀ r : Reg, Cfg.default.addr r ≠ 0xFFFF - 1 ∧ Cfg.default.addr r ≠ 0xFFFF - 2) :=
  ⟨by decide, by decide, clearOf_spec (by decide), clearOf_spec (by decide)⟩

/-- A first slot and a second slot that is ENABLE, the other one memory. -/
theorem wit_DispatchPushesOntoRegisters :
    Cfg.default.wf ∧ Cfg.default.addr .enable = 0x0000 - 1 ∧ (∀ r : Reg, Cfg.default.addr r ≠ 0x0000 - 2) ∧
    Cfg.default.addr .enable = 0x0001 - 2 ∧ (∀ r : Reg, Cfg.default.addr r ≠ 0x0001 - 1) :=
  ⟨by decide, by decide, by intro r; cases r <;> decide, by decide, by intro r; cases r <;> decide⟩

/-- A state whose step dispatches with no delayed enable pending and no hook issued. -/
def dispatching : State :=
  launch { b0 with ime := true, request := 0x01, enable := 0x01 } 0x0100 0xE000
    [{ actions := [.write 0xC000 0x55], pc := 0x0101, sp := 0xE000, cost := 4 }]

theorem wit_MasterEnableClosedList :
    (∃ s t, exec .disImm s = .next t ∧ Instr.disImm ≠ .step ∧ t.block.ime ≠ s.block.ime) ∧
    (∃ t, exec .step dispatching = .next t ∧ dispatching.block.eiPending = false ∧
      (∀ x ∈ (nextAnswer dispatching.block.bugLatch
          { dispatching with block := { dispatching.block with bugLatch := false } }).actions,
        x ≠ ExecAction.enImm ∧ x ≠ ExecAction.disImm) ∧ t.block.ime ≠ dispatching.block.ime) :=
  ⟨⟨at0 { b0 with ime := true }, _, rfl, by decide, by decide⟩, ⟨_, rfl, by decide, by decide, by decide⟩⟩

/-- A handler of source 4 about to return with `EN_IMM`, its request not cleared: with source 2 pending as well, and alone. -/
def returning (request : Byte) : State :=
  launch { b0 with request := request, enable := 0x1F } 0 0xE000 [{ actions := [.enImm], pc := 0x1234, sp := 0xE000, cost := 16 }]

theorem wit_UnacknowledgedRequestDispatchedAgain :
    (∀ r : Reg, Cfg.default.addr r ≠ 0xE000 - 1 ∧ Cfg.default.addr r ≠ 0xE000 - 2) ∧
    (returning 0x14).block.request.getLsbD Source.inputEdge.index = true ∧
    (returning 0x14).block.enable.getLsbD Source.inputEdge.index = true ∧
    (returning 0x10).block.request.getLsbD Source.inputEdge.index = true ∧
    (∀ k : Source, k.index < Source.inputEdge.index →
      ((returning 0x10).block.request.getLsbD k.index && (returning 0x10).block.enable.getLsbD k.index) = false) ∧
    (returning 0x10).block.halted = false ∧
    (returning 0x10).env.answers = { actions := [.enImm], pc := 0x1234, sp := 0xE000, cost := 16 } :: [] ∧
    leaves .step (returning 0x10) (fun t => (t.env.pc, t.result)) = some (0x0060, .cost 36) ∧
    leaves .step (returning 0x14) (fun t => (t.env.pc, t.result)) = some (0x0050, .cost 36) :=
  ⟨clearOf_spec (by decide), by decide, by decide, by decide, by intro k; cases k <;> decide, by decide, by decide,
    by decide +kernel, by decide +kernel⟩

theorem wit_SleepSetsHaltedAndArmsLatch :
    (let s := under { Cfg.default with haltBugEnable := true } (at0 b0)
     s.cfg.haltBugEnable = true ∧ s.block.ime = false ∧ s.block.request &&& s.block.enable &&& 0x1F = 0) ∧
    ¬ (State.reset.cfg.haltBugEnable = true ∧ State.reset.block.ime = false ∧
      State.reset.block.request &&& State.reset.block.enable &&& 0x1F = 0) := by decide

/-- An idle state, a waking state and a running state: the three cases of the statements on `STEP` (also of `StepCost`,
`ExecutorCalledOncePerRunningStep`, `IdleStepOnlyAdvancesTimer` and `RequestBitsNeverCleared`). -/
theorem wit_StepComposesPortOperations :
    (let s := at0 { b0 with halted := true, request := 0xE2, enable := 0xFD }
     s.block.halted = true ∧ s.block.request &&& s.block.enable &&& 0x1F = 0) ∧
    (let s := at0 { b0 with halted := true, request := 0x10, enable := 0x10 }
     s.block.halted = true ∧ s.block.request &&& s.block.enable &&& 0x1F ≠ 0) ∧
    dispatching.block.halted = false ∧
    (nextAnswer dispatching.block.bugLatch
      { dispatching with block := { dispatching.block with bugLatch := false } }).cost = 4 ∧
    ExecAction.sleep ∉ (nextAnswer dispatching.block.bugLatch
      { dispatching with block := { dispatching.block with bugLatch := false } }).actions := by decide

/-- V5.3: the idle step whose own overflow makes a request pending. -/
theorem wit_IdleStepOnlyAdvancesTimer :
    (let s := at0 { b0 with halted := true, control := 0b101, sub := 12, counterReg := 0xFF, enable := 0x04 }
     s.block.halted = true ∧ s.block.request &&& s.block.enable &&& 0x1F = 0 ∧
     leaves .step s (fun t => (t.block.request &&& t.block.enable &&& 0x1F, t.result)) = some (0x04, .cost 4)) := by
  decide +kernel

/-- The two clauses: Master Enable 0 and no delayed enable, and a delayed enable alone; the latter with both slots in memory. -/
theorem wit_WakeStepResumesOrDispatches :
    (let s := launch { b0 with halted := true, enable := 0x10, request := 0x10 } 0x0301 0xC000 []
     s.block.halted = true ∧ s.block.request &&& s.block.enable &&& 0x1F ≠ 0 ∧ s.block.ime = false ∧
     s.block.eiPending = false) ∧
    (let s := launch { b0 with halted := true, enable := 0x01, request := 0x01, eiPending := true } 0x0101 0xE000 []
     s.block.halted = true ∧ s.block.request &&& s.block.enable &&& 0x1F ≠ 0 ∧ s.block.eiPending = true ∧ s.env.mem.wf) ∧
    (∀ r : Reg, Cfg.default.addr r ≠ 0xE000 - 1 ∧ Cfg.default.addr r ≠ 0xE000 - 2) :=
  ⟨by decide, by decide, clearOf_spec (by decide)⟩

theorem wit_StepCost :
    leaves .step dispatching (·.result) = some (.cost 24) ∧
    leaves .step (at0 { b0 with halted := true }) (·.result) = some (.cost 4) ∧
    leaves .step (at0 { b0 with halted := true, request := 0x10, enable := 0x10 }) (·.result) = some (.cost 4) := by
  decide +kernel

theorem wit_ExecutorActionsAreOperations :
    dispatching.env.answers = { actions := [.write 0xC000 0x55], pc := 0x0101, sp := 0xE000, cost := 4 } :: [] ∧
    State.reset.env.answers = [] ∧ Cfg.default.wf ∧ (launch b0 0 0 []).env.mem.wf ∧ (∀ r : Reg, Cfg.default.addr r ≠ 0xFFFE) ∧
    (∀ r : Reg, Cfg.default.addr r ≠ 0x0000) :=
  ⟨by decide, by decide, by decide, by decide, by intro r; cases r <;> decide, by intro r; cases r <;> decide⟩

/-- R144: the actions of an instruction are applied in the order issued, the bus writes among them. -/
theorem test_execute_in_order :
    let reads : ExecAnswer := ⟨[.write 0xC000 0x11, .read 0xC000, .write 0xC000 0x22, .read 0xC000], 0x0101, 0xE000, 4⟩
    let writes : ExecAnswer := ⟨[.write 0xFFFF 0x1F, .write 0xFFFF 0x04, .disImm, .enImm], 0x0101, 0xE000, 4⟩
    (execute false (launch b0 0 0xE000 [reads])).env.reads = [0x11, 0x22] ∧
    (execute false (launch b0 0 0xE000 [writes])).block = { b0 with enable := 0x04, ime := true } := by decide

/-- S7 and V5.6. -/
theorem wit_DelayedEnableLatency (b : List ExecAction) (hb : b = [] ∨ b = [.disImm] ∨ b = [.enDly] ∨ b = [.enImm]) :
    let a1 : ExecAnswer := { actions := [.enDly], pc := 0x0101, sp := 0xE000, cost := 4 }
    let a2 : ExecAnswer := { actions := b, pc := 0x0102, sp := 0xE000, cost := 4 }
    let s := launch { b0 with enable := 0x01, request := 0x01 } 0x0100 0xE000 [a1, a2]
    s.block.ime = false ∧ s.block.eiPending = false ∧ s.block.halted = false ∧ s.env.answers = a1 :: a2 :: [] ∧
      a1.actions = [.enDly] ∧ (ExecAction.enImm ∉ a2.actions ∨ a2.actions = [.enImm]) := by
  rcases hb with rfl | rfl | rfl | rfl <;> decide

/-- S8, and the same with nothing pending. -/
theorem wit_ImmediateEnableSameStep :
    let a : ExecAnswer := { actions := [.enImm], pc := 0x1234, sp := 0xE000, cost := 16 }
    let s := launch { b0 with enable := 0x08, request := 0x08 } 0x0058 0xDFFE [a]
    let s' := launch { b0 with enable := 0x08 } 0x0058 0xDFFE [a]
    s.block.halted = false ∧ s.env.answers = a :: [] ∧ a.actions = [.enImm] ∧
      (s.block.request ||| (if tickOverflow a.cost s.block then 0x04 else 0)) &&& s.block.enable &&& 0x1F ≠ 0 ∧
      (s'.block.request ||| (if tickOverflow a.cost s'.block then 0x04 else 0)) &&& s'.block.enable &&& 0x1F = 0 ∧
      leaves .step s (fun t => (t.result, t.env.pc, t.env.sp)) = some (.cost 36, 0x0058, 0xDFFE) := by decide +kernel

/-- V5.8: the request is made by the step's own overflow. -/
theorem wit_SleepThenDispatchStaysHalted :
    (let a : ExecAnswer := { actions := [.sleep], pc := 0x0101, sp := 0xE000, cost := 4 }
     let s := launch { b0 with ime := true, enable := 0x04, control := 0b101, sub := 12, counterReg := 0xFF,
                               reloadReg := 0x80 } 0x0100 0xE000 [a]
     s.block.halted = false ∧ s.env.answers = a :: [] ∧ a.actions = [.sleep] ∧ s.block.ime = true ∧
       s.block.eiPending = false ∧
       (s.block.request ||| (if tickOverflow a.cost s.block then 0x04 else 0)) &&& s.block.enable &&& 0x1F ≠ 0) ∧
    (∀ r : Reg, Cfg.default.addr r ≠ 0xE000 - 1 ∧ Cfg.default.addr r ≠ 0xE000 - 2) :=
  ⟨by decide +kernel, clearOf_spec (by decide)⟩

theorem wit_AsleepAfterStepOnlyByIdleOrSleep :
    leaves .step (at0 { b0 with halted := true }) (·.block.halted) = some true ∧
    leaves .step (launch b0 0x0200 0xD000 [{ actions := [.sleep], pc := 0x0201, sp := 0xD000, cost := 4 }]) (·.block.halted) =
      some true := by decide +kernel

/-- The three shapes the hypotheses speak of: a dispatch, a step asleep, a running step. -/
theorem wit_RequestBitsNeverCleared :
    (∃ t, exec (.dispatch .inputEdge 0x0100) dispatching = .next t ∧ (∀ v, Instr.dispatch .inputEdge 0x0100 ≠ .wrRequest v) ∧
      dispatching.cfg.addrRequest ≠ dispatching.env.sp - 1 ∧ dispatching.cfg.addrRequest ≠ dispatching.env.sp - 2) ∧
    (∃ t, exec .step dispatching = .next t ∧ ∀ a, a = nextAnswer dispatching.block.bugLatch
        { dispatching with block := { dispatching.block with bugLatch := false } } →
      (∀ v, ExecAction.write dispatching.cfg.addrRequest v ∉ a.actions) ∧
      dispatching.cfg.addrRequest ≠ a.sp - 1 ∧ dispatching.cfg.addrRequest ≠ a.sp - 2) ∧
    (let s := launch { b0 with halted := true, enable := 0x01, request := 0x01 } 0 0xE000 []
     s.block.halted = true ∧ s.cfg.addrRequest ≠ s.env.sp - 1 ∧ s.cfg.addrRequest ≠ s.env.sp - 2) := by
  refine ⟨⟨_, rfl, fun v => by simp, by decide, by decide⟩, ⟨_, rfl, ?_⟩, by decide⟩
  rintro a rfl
  refine ⟨fun v hv => ?_, by decide, by decide⟩
  have h : ExecAction.write 0xFF0F v = .write 0xC000 0x55 := List.mem_singleton.mp hv
  have h' : (0xFF0F : Addr) = 0xC000 := (ExecAction.write.inj h).1
  exact absurd h' (by decide)

theorem wit_SleepWithNothingEnabledNeverWakes :
    let s := (at0 { b0 with halted := true, request := 0x1F, enable := 0xE0 }).withPort [0xB0000000, 0xB0000000]
    s.block.halted = true ∧ s.block.enable &&& 0x1F = 0 ∧ s.port = List.replicate 2 0xB0000000 := by decide

theorem wit_ResetRestoresBlock : (at0 { b0 with halted := true }).cfg = Cfg.default := by decide

/-- A register address, its two neighbours in memory, and the ends of the address space. -/
theorem wit_FlatByteArray :
    Cfg.default.wf ∧ State.reset.env.mem.wf ∧ Cfg.default.addr .divider = 0xFF04 ∧ Cfg.default.addr .enable = 0xFFFF ∧
    (∀ r : Reg, Cfg.default.addr r ≠ 0xFF03) ∧ (∀ r : Reg, Cfg.default.addr r ≠ 0xFF08) ∧
    (∀ r : Reg, Cfg.default.addr r ≠ 0x0000) :=
  ⟨by decide, by decide, rfl, rfl, by intro r; cases r <;> decide, by intro r; cases r <;> decide,
    by intro r; cases r <;> decide⟩

theorem wit_OnlyStepAndDispatchTouchEnvironment : ∃ t, exec (.tick 5) (at0 b0) = .next t := ⟨_, rfl⟩

/-- A state under the invariant that is not the reset state, and its step. -/
theorem wit_StepKeepsInv :
    let s := (under { Cfg.default with haltBugEnable := true }
      (launch { b0 with bugLatch := true, halted := true } 0 0xE000 [])).withPort [0xB0000000]
    Inv s ∧ ∃ t, step s = .next t :=
  ⟨⟨fun _ => rfl, by decide, fun x hx => absurd hx (by simp [under, launch, State.reset, at0])⟩, ⟨_, rfl⟩⟩

end Sys2Proof.Tests
end

section
/-! SUPPORT. What an operation can do, said once (the table of R74), and what the executor's call and the scheduler step
leave alone: the ground of the statements about the whole state. -/

namespace Sys2Proof.Machine

/-- A latch set after entering sleep was set before, or `HALT_BUG_ENABLE` let it be armed (R141). -/
theorem latch_of_enterSleep {c : Cfg} {b : Block} (h : (enterSleep c b).bugLatch = true) :
    b.bugLatch = true ∨ c.haltBugEnable = true := by
  rw [enterSleep_bugLatch, Bool.or_eq_true, Bool.and_eq_true, Bool.and_eq_true] at h
  exact h.imp_right fun ⟨⟨hc, _⟩, _⟩ => hc

/-- An operation dispatches, is the scheduler step, or ends with a new block and a result. In the last case it sets the
latch only under `HALT_BUG_ENABLE` (R141), and no operation but `WR REQUEST` and `RESET` clears a request bit (R26). -/
theorem exec_cases {i : Instr} {s t : State} (h : exec i s = .next t) :
    (∃ src p, i = .dispatch src p ∧ t = (dispatchTo src p s).withResult (.cost dispatchCost)) ∨
    (i = .step ∧ t = schedulerStep s) ∨
    (∃ b r, t = finish b r s ∧
      (b.bugLatch = true → s.block.bugLatch = true ∨ s.cfg.haltBugEnable = true) ∧
      ((∀ v, i ≠ .wrRequest v) → i ≠ .reset → ∃ m, b.request = s.block.request ||| m)) := by
  cases i with
  | dispatch src p => cases h; exact .inl ⟨src, p, rfl, rfl⟩
  | step => cases h; exact .inr (.inl ⟨rfl, rfl⟩)
  | raise lines => cases h; exact .inr (.inr ⟨_, _, rfl, .inl, fun _ _ => ⟨linesMask lines, rfl⟩⟩)
  | sleep =>
    cases h
    exact .inr (.inr ⟨_, _, rfl, latch_of_enterSleep, fun _ _ => ⟨0, by simp⟩⟩)
  | wrRequest v => cases h; exact .inr (.inr ⟨_, _, rfl, .inl, fun hw => absurd rfl (hw v)⟩)
  | reset => cases h; exact .inr (.inr ⟨_, _, rfl, nofun, fun _ hr => absurd rfl hr⟩)
  | tick n | resolve =>
    cases h
    exact .inr (.inr ⟨_, _, rfl, fun hb => .inl (by simpa using hb), fun _ _ => ⟨0, by simp⟩⟩)
  | _ => cases h; exact .inr (.inr ⟨_, _, rfl, .inl, fun _ _ => ⟨0, BitVec.or_zero.symm⟩⟩)

/-- A step does nothing with no command waiting, performs the operation the oldest word spells, or refuses a word that
spells none (R70, R79, R80, R81). -/
theorem step_cases (s : State) :
    (s.port = [] ∧ step s = .next s) ∨
    (∃ w rest i, s.port = w :: rest ∧ decode s.cfg w = .ok i ∧ step s = exec i (s.withPort rest)) ∨
    (∃ w rest r, s.port = w :: rest ∧ decode s.cfg w = .error r ∧ step s = .next (refuse r (s.withPort rest))) := by
  unfold step
  cases hp : s.port with
  | nil => exact .inl ⟨rfl, by rw [fetch_of_empty hp]⟩
  | cons w rest =>
    rw [fetch_of_port hp]
    cases hd : decode s.cfg w with
    | ok i => exact .inr (.inl ⟨w, rest, i, rfl, hd, by simp only [State.withPort_cfg, hd]⟩)
    | error r => exact .inr (.inr ⟨w, rest, r, rfl, hd, by simp only [State.withPort_cfg, hd]⟩)

/-- A call of the executor leaves the configuration and the port alone (R11). -/
@[simp] theorem execute_cfg (refetch : Bool) (s : State) : (execute refetch s).cfg = s.cfg :=
  (runAnswer_frame _ _).1
@[simp] theorem execute_port (refetch : Bool) (s : State) : (execute refetch s).port = s.port :=
  (runAnswer_frame _ _).2.1

/-- The executor's stack pointer after a call is its answer's (R11). -/
@[simp] theorem execute_sp (refetch : Bool) (s : State) : (execute refetch s).env.sp = (nextAnswer refetch s).sp := rfl

@[simp] theorem concludeStep_cfg (armed : Bool) (base : Nat) (u : State) : (concludeStep armed base u).cfg = u.cfg := by
  obtain ⟨-, -, -, -, -, -, hc, -⟩ := concludeStep_frame armed base u
  exact hc
@[simp] theorem concludeStep_port (armed : Bool) (base : Nat) (u : State) : (concludeStep armed base u).port = u.port := by
  obtain ⟨-, -, -, -, -, -, -, hp⟩ := concludeStep_frame armed base u
  exact hp

/-- A scheduler step leaves the configuration and the port alone, whatever the executor does (R41). -/
theorem schedulerStep_frame (s : State) : (schedulerStep s).cfg = s.cfg ∧ (schedulerStep s).port = s.port := by
  rcases schedulerStep_cases s with ⟨-, -, h⟩ | ⟨-, -, h⟩ | ⟨-, h⟩
  · rw [h]; exact ⟨rfl, rfl⟩
  · rw [h, wakeStep_eq]; simp
  · rw [h, runningStep_eq]; simp

end Sys2Proof.Machine
end

section
/-! SUPPORT. The invariant of Safety.lean under every operation of the state, from a byte on the bus up to a step. -/

namespace Sys2Proof.Machine

/-- The invariant speaks of the configuration, the latch and memory alone. -/
theorem Inv.of_frame {s t : State} (hs : Inv s) (hc : t.cfg = s.cfg) (hm : t.env.mem = s.env.mem)
    (hl : t.block.bugLatch = true → s.block.bugLatch = true ∨ s.cfg.haltBugEnable = true) : Inv t where
  latch hb := by rw [hc]; exact (hl hb).elim hs.latch id
  form := by rw [hm]; exact hs.form
  apart := by unfold memoryApart; rw [hm, hc]; exact hs.apart

/-- A bus write keeps the invariant: it reaches memory only at an address that is no register's (R52). -/
theorem Inv.memWrite {s : State} (hs : Inv s) (a : Addr) (v : Byte) : Inv (memWrite a v s) where
  latch := by unfold latchAllowed; rw [memWrite_bugLatch, memWrite_cfg]; exact hs.latch
  form := memWrite_wf hs.form a v
  apart := by
    rcases memWrite_cases a v s with ⟨r, -, hw⟩ | ⟨hn, hw⟩
    · rw [hw]; exact hs.apart
    · rw [hw]
      intro x hx r
      rcases Memory.mem_set hx with rfl | hx
      · exact fun he => ne_addr_of_regAt_none hn r (BitVec.eq_of_toNat_eq he.symm)
      · exact hs.apart x hx r

/-- A push keeps the invariant (R11). -/
theorem Inv.push {s : State} (hs : Inv s) (v : Byte) : Inv (push v s) :=
  Inv.memWrite (s := s.withEnv { s.env with sp := s.env.sp - 1 }) (hs.of_frame rfl rfl .inl) _ v

/-- A dispatch keeps the invariant (R127). -/
theorem Inv.dispatchTo {s : State} (hs : Inv s) (i : Source) (p : Addr) : Inv (dispatchTo i p s) := by
  have hd : Inv (s.withBlock (disableNow s.block)) := hs.of_frame rfl rfl .inl
  exact ((hd.push _).push _).of_frame rfl rfl .inl

/-- Each action of the executor keeps the invariant (R144). -/
theorem Inv.applyAction {s : State} (hs : Inv s) (x : ExecAction) : Inv (applyAction s x) := by
  cases x with
  | write a v => exact hs.memWrite a v
  | sleep => exact hs.of_frame rfl rfl latch_of_enterSleep
  | _ => exact hs.of_frame rfl rfl .inl

/-- A call of the executor keeps the invariant, whatever its answer (R11). -/
theorem Inv.execute {s : State} (hs : Inv s) (refetch : Bool) : Inv (execute refetch s) := by
  have hcall : Inv (callExecutor refetch s) := hs.of_frame rfl rfl .inl
  have hdone := foldl_applyAction_keeps (P := Inv) (fun _ x h => h.applyAction x) (nextAnswer refetch s).actions _ hcall
  exact hdone.of_frame rfl rfl .inl

/-- The timer's advance keeps the invariant (R143, step 4). -/
theorem Inv.advanceTimer {s : State} (hs : Inv s) (n : Nat) : Inv (advanceTimer n s) :=
  hs.of_frame rfl rfl fun hb => .inl (by simpa using hb)

/-- The conclusion of a step keeps the invariant (R143, steps 4 to 6). -/
theorem Inv.concludeStep {u : State} (hu : Inv u) (armed : Bool) (base : Nat) : Inv (concludeStep armed base u) := by
  have hr : Inv (resolveArmed armed (Machine.advanceTimer base u)) :=
    (hu.advanceTimer base).of_frame (resolveArmed_cfg _ _) (by rw [resolveArmed_env]) fun hb => by
      cases armed <;> exact .inl (by simpa using hb)
  unfold Machine.concludeStep
  rcases evaluate_cases base (resolveArmed armed (Machine.advanceTimer base u)) with ⟨i, -, h⟩ | ⟨-, h⟩
  · rw [h]; exact (hr.dispatchTo i _).of_frame rfl rfl .inl
  · rw [h]; exact hr.of_frame rfl rfl .inl

/-- A scheduler step of each of the three kinds keeps the invariant (R143). -/
theorem Inv.schedulerStep {s : State} (hs : Inv s) : Inv (schedulerStep s) := by
  rcases schedulerStep_cases s with ⟨-, -, h⟩ | ⟨-, -, h⟩ | ⟨-, h⟩
  · rw [h]; exact (hs.advanceTimer _).of_frame rfl rfl .inl
  · have hawake : Inv (s.withBlock { s.block with halted := false }) := hs.of_frame rfl rfl .inl
    rw [h]; exact hawake.concludeStep _ _
  · have hcleared : Inv (s.withBlock { s.block with bugLatch := false }) := hs.of_frame rfl rfl nofun
    rw [h]; exact (hcleared.execute _).concludeStep _ _

/-- Every operation keeps the invariant. -/
theorem Inv.exec {i : Instr} {s t : State} (hs : Inv s) (h : exec i s = .next t) : Inv t := by
  rcases exec_cases h with ⟨src, p, -, rfl⟩ | ⟨-, rfl⟩ | ⟨b, r, rfl, hlatch, -⟩
  · exact (hs.dispatchTo src p).of_frame rfl rfl .inl
  · exact hs.schedulerStep
  · exact hs.of_frame rfl rfl hlatch

/-- Settles O42: taking a word from the port and refusing one touch nothing the invariant speaks of, and every operation
keeps it. -/
theorem stepKeepsInv : Obligations.StepKeepsInv := by
  unfold Obligations.StepKeepsInv
  intro s t hs h
  rcases step_cases s with ⟨-, he⟩ | ⟨w, rest, i, -, -, he⟩ | ⟨w, rest, r, -, -, he⟩
  · rw [he] at h; cases h; exact hs
  · have htaken : Inv (s.withPort rest) := hs.of_frame rfl rfl .inl
    exact htaken.exec (he ▸ h)
  · rw [he] at h; cases h; exact hs.of_frame rfl rfl .inl

/-- Settles O41: at reset the latch is clear and memory lists nothing. -/
theorem invHoldsAtReset : Obligations.InvHoldsAtReset where
  latch hb := by cases hb
  form := Memory.wf_reset
  apart _ hx := by cases hx

/-- Settles O37: the reset values of all eleven elements are written out as zeros (R40). -/
theorem powerOnState : Obligations.PowerOnState := by
  unfold Obligations.PowerOnState
  exact ⟨rfl, rfl, rfl, rfl, rfl, rfl, rfl, rfl, rfl, rfl, rfl⟩

/-- Settles O39: an operation that neither dispatches nor steps ends with a new block and a result. -/
theorem onlyStepAndDispatchTouchEnvironment : Obligations.OnlyStepAndDispatchTouchEnvironment := by
  unfold Obligations.OnlyStepAndDispatchTouchEnvironment
  intro s t i h
  rcases exec_cases h with ⟨src, p, hi, rfl⟩ | ⟨hi, rfl⟩ | ⟨b, r, rfl, -, -⟩
  · exact ⟨by simp, by simp, .inl ⟨src, p, hi⟩⟩
  · obtain ⟨hcfg, hport⟩ := schedulerStep_frame s
    exact ⟨hcfg, hport, .inr (.inl hi)⟩
  · exact ⟨rfl, rfl, .inr (.inr rfl)⟩

end Sys2Proof.Machine
end

section
/-! SUPPORT. The request mask through a step: the executor leaves it alone unless it writes REQUEST on the bus, and the
conclusion of the step only ORs the timer's bit into it (R26, R64). -/

namespace Sys2Proof.Machine

/-- An action that is no bus write of REQUEST leaves `request` alone (R144). -/
theorem applyAction_request {s : State} {x : ExecAction} (h : ∀ v, x ≠ .write s.cfg.addrRequest v) :
    (applyAction s x).block.request = s.block.request := by
  cases x with
  | write a v => exact memWrite_request (fun ha => h v (by rw [ha])) v
  | _ => simp [applyAction]

/-- An instruction without a bus write of REQUEST leaves `request` alone (R144). -/
theorem execute_request {refetch : Bool} {s : State}
    (h : ∀ v, ExecAction.write s.cfg.addrRequest v ∉ (nextAnswer refetch s).actions) :
    (execute refetch s).block.request = s.block.request := by
  have hkeep := foldl_applyAction_keeps_of_mem
    (P := fun t => t.cfg = s.cfg ∧ t.block.request = s.block.request) (nextAnswer refetch s).actions
    (fun t x hx ⟨hc, hr⟩ => by
      have hne : ∀ v, x ≠ .write t.cfg.addrRequest v := fun v he => h v (by rw [← hc, ← he]; exact hx)
      exact ⟨by rw [applyAction_cfg, hc], by rw [applyAction_request hne, hr]⟩)
    (callExecutor refetch s) ⟨rfl, rfl⟩
  exact hkeep.2

/-- The conclusion of a step whose pushes would not land on REQUEST leaves there the mask after the timer's advance (R143). -/
theorem concludeStep_request {u : State} (armed : Bool) (base : Nat) (h1 : u.cfg.addrRequest ≠ u.env.sp - 1)
    (h2 : u.cfg.addrRequest ≠ u.env.sp - 2) :
    (concludeStep armed base u).block.request = requestAfter base u.block := by
  rcases concludeStep_cases armed base u with ⟨-, -, -, -, hreq, -⟩ | ⟨i, -, -, -, heq, -, -, -⟩
  · exact hreq
  · rw [heq, State.withResult_block, dispatchTo_request i u.env.pc (by simpa using h1) (by simpa using h2)]
    cases armed <;> simp [requestAfter]

/-- The fold of an overflow clears no bit of `request` (R64). -/
theorem or_requestAfter (n : Nat) (b : Block) : b.request ||| requestAfter n b = requestAfter n b := by
  rw [requestAfter_eq, ← BitVec.or_assoc, BitVec.or_self]

/-- The conclusion of a step whose pushes would not land on REQUEST clears no bit of `request` (R26). -/
theorem or_concludeStep_request {u : State} (armed : Bool) (base : Nat) (h1 : u.cfg.addrRequest ≠ u.env.sp - 1)
    (h2 : u.cfg.addrRequest ≠ u.env.sp - 2) :
    u.block.request ||| (concludeStep armed base u).block.request = (concludeStep armed base u).block.request := by
  rw [concludeStep_request armed base h1 h2, or_requestAfter]

/-- An idle step leaves the mask after the timer's advance (R148). -/
theorem idleStep_request (s : State) : (idleStep s).block.request = requestAfter s.cfg.idleCost s.block := by
  simp [idleStep, requestAfter]

/-- Settles O34: in a dispatch by its two slots, in a step by its kind. -/
theorem requestBitsNeverCleared : Obligations.RequestBitsNeverCleared := by
  unfold Obligations.RequestBitsNeverCleared
  intro s t i h hwr hreset hasleep hawake
  rcases exec_cases h with ⟨src, p, hi, rfl⟩ | ⟨hi, rfl⟩ | ⟨b, r, rfl, -, hreq⟩
  · obtain ⟨h1, h2⟩ := hasleep (.inl ⟨src, p, hi⟩)
    rw [State.withResult_block, dispatchTo_request src p h1 h2, BitVec.or_self]
  · rcases schedulerStep_cases s with ⟨-, -, he⟩ | ⟨hh, -, he⟩ | ⟨hh, he⟩
    · rw [he, idleStep_request, or_requestAfter]
    · obtain ⟨h1, h2⟩ := hasleep (.inr ⟨hi, hh⟩)
      rw [he]
      exact or_concludeStep_request (u := s.withBlock { s.block with halted := false }) _ _ h1 h2
    · obtain ⟨hact, h1, h2⟩ := hawake _ hi hh rfl
      have hconclude := or_concludeStep_request s.block.eiPending
        (nextAnswer s.block.bugLatch { s with block := { s.block with bugLatch := false } }).cost
        (u := execute s.block.bugLatch { s with block := { s.block with bugLatch := false } })
        (by simpa using h1) (by simpa using h2)
      rw [execute_request hact] at hconclude
      rw [he, runningStep_eq]
      exact hconclude
  · obtain ⟨m, hm⟩ := hreq hwr hreset
    rw [finish_block, hm, ← BitVec.or_assoc, BitVec.or_self]

end Sys2Proof.Machine
end

section
/-! SUPPORT. The registers and memory as one byte array: what a read on the bus returns after a write on the bus (R51, R52). -/

namespace Sys2Proof.Machine

/-- What a read of a register returns of the byte last written to it: the write rule, then the read rule (R29). -/
def keptByte (c : Cfg) (r : Reg) (v : Byte) : Byte :=
  match r with
  | .divider => 0x00
  | .counter => v
  | .reload => v
  | .control => c.controlReadHigh ++ v.extractLsb' 0 3
  | .request => maskAsRead c v
  | .enable => maskAsRead c v

/-- A zeroed free-running counter reads as a zero DIVIDER (R114, R115). -/
theorem hi_zero : hi 0 = 0x00 := rfl

/-- No write rule reaches what another register reads as; its own register reads as what it keeps of the byte (R9, R29). -/
theorem readReg_writeReg (c : Cfg) (r r' : Reg) (v : Byte) (b : Block) :
    readReg c r' (writeReg r v b) = if r' = r then keptByte c r v else readReg c r' b := by
  cases r with
  | divider =>
    cases r' with
    | divider => exact hi_zero
    | _ => rfl
  | _ => cases r' <;> rfl

/-- A read where the bus decode answers with a register is its read rule (R51). -/
theorem memRead_of_regAt_some {a : Addr} {r : Reg} {s : State} (h : s.cfg.regAt a = some r) :
    memRead a s = readReg s.cfg r s.block := by
  simp only [memRead, h]

/-- A read where the bus decode answers with none is the byte of memory (R51). -/
theorem memRead_of_regAt_none {a : Addr} {s : State} (h : s.cfg.regAt a = none) :
    memRead a s = s.env.mem.get a.toNat := by
  simp only [memRead, h]

/-- A write on the bus changes what a read returns at no other address, whichever answers there (R52). -/
theorem memRead_memWrite_of_ne {s : State} (hm : s.env.mem.wf) {a b : Addr} (hne : b ≠ a) (v : Byte) :
    memRead b (memWrite a v s) = memRead b s := by
  cases hb : s.cfg.regAt b with
  | some r' =>
    rw [memRead_of_regAt_some (by rwa [memWrite_cfg]), memRead_of_regAt_some hb, memWrite_cfg]
    rcases memWrite_cases a v s with ⟨r, ha, hw⟩ | ⟨-, hw⟩
    · have hrr : r' ≠ r := fun he => hne (by rw [← addr_of_regAt hb, ← addr_of_regAt ha, he])
      rw [hw, State.withBlock_block, readReg_writeReg, if_neg hrr]
    · rw [hw, State.withEnv_block]
  | none =>
    rw [memRead_of_regAt_none (by rwa [memWrite_cfg]), memRead_of_regAt_none hb]
    rcases memWrite_cases a v s with ⟨r, -, hw⟩ | ⟨-, hw⟩
    · rw [hw, State.withBlock_env]
    · have hab : a.toNat ≠ b.toNat := fun he => hne (BitVec.eq_of_toNat_eq he.symm)
      rw [hw, State.withEnv_env, Memory.get_set hm, if_neg hab]

/-- At no register's address a read returns the byte written (R51, R52). -/
theorem memRead_memWrite_of_memory {s : State} (hm : s.env.mem.wf) {a : Addr} (h : ∀ r : Reg, s.cfg.addr r ≠ a)
    (v : Byte) : memRead a (memWrite a v s) = v := by
  rw [memRead_of_regAt_none (by rw [memWrite_cfg]; exact regAt_eq_none_iff.mpr h), memWrite_of_memory h,
    Memory.get_set hm, if_pos rfl]

/-- At a register's address a read returns what the register keeps of the byte (R51, R52). -/
theorem memRead_memWrite_of_register {s : State} (hc : s.cfg.wf) (r : Reg) (v : Byte) :
    memRead (s.cfg.addr r) (memWrite (s.cfg.addr r) v s) = keptByte s.cfg r v := by
  rw [memRead_of_regAt_some (by rw [memWrite_cfg]; exact regAt_addr hc r), memWrite_of_register hc,
    readReg_writeReg, if_pos rfl]

/-- Settles O38: the frame, memory and the registers in turn. -/
theorem flatByteArray : Obligations.FlatByteArray := by
  unfold Obligations.FlatByteArray
  intro s a b v hc hm
  refine ⟨fun hne => memRead_memWrite_of_ne hm hne v, fun h => ⟨memRead_memWrite_of_memory hm h v, ?_⟩, ?_⟩
  · rw [memWrite_of_memory h]
  · rintro r rfl
    refine ⟨by rw [memWrite_of_register hc], ?_⟩
    rw [memRead_memWrite_of_register hc]
    cases r <;> rfl

end Sys2Proof.Machine
end

section
/-! SUPPORT. The encoder read from bit 31 down (R71 to R78): a word is the concatenation of its fields. -/

namespace Sys2Proof

open Sys2Proof.Laws.OpField (getLsbD_place)

/-- Fields side by side are one field, the concatenation. -/
theorem place_append (m n : Nat) (x : BitVec m) (y : BitVec n) (low : Nat) :
    place (m + n) (x ++ y) low = place m x (low + n) ||| place n y low := by
  apply BitVec.eq_of_getLsbD_eq
  intro i hi
  simp only [BitVec.getLsbD_or, getLsbD_place, BitVec.getLsbD_append]
  by_cases hlow : i < low
  · simp [hlow, show i < low + n by omega]
  by_cases hy : i < low + n
  · simp [hlow, hy, show i - low < n by omega]
  · simp [hlow, hy, show ¬ i - low < n by omega, y.getLsbD_of_ge (i - low) (by omega), Nat.sub_add_eq]

/-- A field of the whole width is the word. -/
@[simp] theorem place_full (w : Word) : place 32 w 0 = w := by
  simp [place]

/-- A zero field sets no bit. -/
@[simp] theorem place_zero (n low : Nat) : place n 0#n low = 0#32 := by
  simp [place]

/-- Format N (R72). -/
theorem encodeBare_eq_append (op : BitVec 4) : encodeBare op = op ++ 0#28 := by
  rw [← place_full (op ++ 0#28), place_append 4 28]
  simp [encodeBare]

/-- Format B (R73). -/
theorem encodeBus_eq_append (op : BitVec 4) (a : Addr) (v : Byte) : encodeBus op a v = op ++ a ++ v ++ 0#4 := by
  rw [← place_full (op ++ a ++ v ++ 0#4), place_append 28 4, place_append 20 8, place_append 4 16]
  simp [encodeBus]

/-- Format R (R75). -/
theorem encodeRaise_eq_append (lines : BitVec 5) : encodeRaise lines = 0x2#4 ++ 0#19 ++ lines ++ 0#4 := by
  rw [← place_full (0x2#4 ++ 0#19 ++ lines ++ 0#4), place_append 28 4, place_append 23 5, place_append 4 19]
  simp [encodeRaise]

/-- Format T (R76). -/
theorem encodeTick_eq_append (n : Nat) : encodeTick n = 0x3#4 ++ BitVec.ofNat 28 n := by
  rw [← place_full (0x3#4 ++ BitVec.ofNat 28 n), place_append 4 28]
  simp [encodeTick]

/-- Format D (R77). -/
theorem encodeDispatch_eq_append (i : Source) (p : Addr) :
    encodeDispatch i p = 0x5#4 ++ p ++ 0#5 ++ BitVec.ofNat 3 i.index ++ 0#4 := by
  rw [← place_full (0x5#4 ++ p ++ 0#5 ++ BitVec.ofNat 3 i.index ++ 0#4), place_append 28 4, place_append 25 3,
    place_append 20 5, place_append 4 16]
  simp [encodeDispatch]

/-- A read's word has format B with no data (R73, R74). -/
theorem encode_rd (c : Cfg) (r : Reg) : encode c (.rd r) = encodeBus 0x0 (c.addr r) 0 := by
  cases r <;> rfl

/-- A write's word has format B (R73, R74). -/
theorem encode_wr (c : Cfg) (r : Reg) (v : Byte) : encode c (.wr r v) = encodeBus 0x1 (c.addr r) v := by
  cases r <;> rfl

/-- Settles O3, format by format. -/
theorem wordsFollowFormatTables : Obligations.WordsFollowFormatTables := by
  unfold Obligations.WordsFollowFormatTables
  intro c v lines n p
  exact ⟨fun r => (encode_rd c r).trans (encodeBus_eq_append _ _ _),
    fun r => (encode_wr c r v).trans (encodeBus_eq_append _ _ _),
    encodeRaise_eq_append lines, encodeTick_eq_append n, encodeBare_eq_append _,
    encodeDispatch_eq_append _ p, encodeDispatch_eq_append _ p, encodeDispatch_eq_append _ p,
    encodeDispatch_eq_append _ p, encodeDispatch_eq_append _ p,
    encodeBare_eq_append _, encodeBare_eq_append _, encodeBare_eq_append _, encodeBare_eq_append _,
    encodeBare_eq_append _, encodeBare_eq_append _, encodeBare_eq_append _⟩

end Sys2Proof
end

section
/-! SUPPORT. What the decoder of each format answers (R72 to R77), and which of them field `op` selects (R71), said once. -/

namespace Sys2Proof

open Sys2Proof.Laws.OpField (number)

/-! ### Field `src` and the table of sources (R77) -/

/-- The field that holds a source's index names that source. -/
theorem Source.ofField_index (i : Source) : Source.ofField (BitVec.ofNat 3 i.index) = some i := by
  cases i <;> rfl

/-- A field that names a source holds its index. -/
theorem Source.index_of_ofField {f : BitVec 3} {i : Source} (h : Source.ofField f = some i) :
    BitVec.ofNat 3 i.index = f := by
  have hi : i.index = f.toNat := by simpa using List.find?_some h
  rw [hi, BitVec.ofNat_toNat, BitVec.setWidth_eq]

/-- 5, 6 and 7 name no source. -/
theorem Source.ofField_eq_none_iff (f : BitVec 3) : Source.ofField f = none ↔ 4 < f.toNat := by
  revert f; decide

/-! ### The check of a format's zero fields -/

section
variable {p : Prop} [Decidable p] {d : Except RefuseReason Instr}

/-- A word decodes to an operation only past the check of its zero fields (R79). -/
theorem checked_eq_ok_iff {j : Instr} : (if p then d else .error .illegal) = .ok j ↔ p ∧ d = .ok j := by
  split <;> simp_all

/-- A failed check makes the word illegal (R79). -/
theorem checked_eq_error_iff {e : RefuseReason} :
    (if p then d else .error .illegal) = .error e ↔ (¬ p ∧ .illegal = e) ∨ (p ∧ d = .error e) := by
  split <;> simp_all

end

/-! ### The formats: which words are an operation, and why the others are none (R72 to R77, R80, R81) -/

theorem decodeBare_eq_ok_iff {w : Word} {i j : Instr} : decodeBare w i = .ok j ↔ cyclesField w = 0 ∧ i = j := by
  rw [decodeBare, checked_eq_ok_iff, Except.ok.injEq]

theorem decodeBare_eq_error_iff {w : Word} {i : Instr} {e : RefuseReason} :
    decodeBare w i = .error e ↔ cyclesField w ≠ 0 ∧ .illegal = e := by
  simp [decodeBare, checked_eq_error_iff]

theorem decodeRd_eq_ok_iff {c : Cfg} {w : Word} {j : Instr} :
    decodeRd c w = .ok j ↔
      (lowField w = 0 ∧ dataField w = 0) ∧ ∃ r, c.regAt (addrField w) = some r ∧ .rd r = j := by
  rw [decodeRd, checked_eq_ok_iff]
  cases c.regAt (addrField w) <;> simp

theorem decodeRd_eq_error_iff {c : Cfg} {w : Word} {e : RefuseReason} :
    decodeRd c w = .error e ↔
      (¬ (lowField w = 0 ∧ dataField w = 0) ∧ .illegal = e) ∨
      ((lowField w = 0 ∧ dataField w = 0) ∧ c.regAt (addrField w) = none ∧ .notMine = e) := by
  rw [decodeRd, checked_eq_error_iff]
  cases c.regAt (addrField w) <;> simp

theorem decodeWr_eq_ok_iff {c : Cfg} {w : Word} {j : Instr} :
    decodeWr c w = .ok j ↔ lowField w = 0 ∧ ∃ r, c.regAt (addrField w) = some r ∧ .wr r (dataField w) = j := by
  rw [decodeWr, checked_eq_ok_iff]
  cases c.regAt (addrField w) <;> simp

theorem decodeWr_eq_error_iff {c : Cfg} {w : Word} {e : RefuseReason} :
    decodeWr c w = .error e ↔
      (lowField w ≠ 0 ∧ .illegal = e) ∨ (lowField w = 0 ∧ c.regAt (addrField w) = none ∧ .notMine = e) := by
  rw [decodeWr, checked_eq_error_iff]
  cases c.regAt (addrField w) <;> simp

theorem decodeRaise_eq_ok_iff {w : Word} {j : Instr} :
    decodeRaise w = .ok j ↔ (lowField w = 0 ∧ raiseZeroField w = 0) ∧ .raise (linesField w) = j := by
  rw [decodeRaise, checked_eq_ok_iff, Except.ok.injEq]

theorem decodeRaise_eq_error_iff {w : Word} {e : RefuseReason} :
    decodeRaise w = .error e ↔ ¬ (lowField w = 0 ∧ raiseZeroField w = 0) ∧ .illegal = e := by
  simp [decodeRaise, checked_eq_error_iff]

theorem decodeDispatch_eq_ok_iff {w : Word} {j : Instr} :
    decodeDispatch w = .ok j ↔
      (lowField w = 0 ∧ dispatchZeroField w = 0) ∧
        ∃ i, Source.ofField (srcField w) = some i ∧ .dispatch i (addrField w) = j := by
  rw [decodeDispatch, checked_eq_ok_iff]
  cases Source.ofField (srcField w) <;> simp

theorem decodeDispatch_eq_error_iff {w : Word} {e : RefuseReason} :
    decodeDispatch w = .error e ↔
      (¬ (lowField w = 0 ∧ dispatchZeroField w = 0) ∨ 4 < (srcField w).toNat) ∧ .illegal = e := by
  rw [decodeDispatch, checked_eq_error_iff, ← Source.ofField_eq_none_iff]
  cases Source.ofField (srcField w) with
  | none => simp only [Except.error.injEq, ← or_and_right, Decidable.not_or_self, or_true, true_and]
  | some i => simp

/-! ### The rows of the table of R71 -/

/-- The operations of format N, which have no operand. -/
def operandless : List Instr := [.pendvec, .enImm, .disImm, .enDly, .resolve, .sleep, .step, .reset]

/-- A word of format N is its number alone (R72). -/
theorem encode_operandless {i : Instr} (hi : i ∈ operandless) (c : Cfg) : encode c i = encodeBare (number i) := by
  simp only [operandless, List.mem_cons, List.not_mem_nil, or_false] at hi
  rcases hi with rfl | rfl | rfl | rfl | rfl | rfl | rfl | rfl <;> rfl

/-! Each value of field `op` selects the decoder of its row. -/

section
variable {c : Cfg} {w : Word}

theorem decode_rd (h : opField w = 0x0) : decode c w = decodeRd c w := by
  unfold decode; rw [h]; rfl

theorem decode_wr (h : opField w = 0x1) : decode c w = decodeWr c w := by
  unfold decode; rw [h]; rfl

theorem decode_raise (h : opField w = 0x2) : decode c w = decodeRaise w := by
  unfold decode; rw [h]; rfl

theorem decode_tick (h : opField w = 0x3) : decode c w = .ok (.tick (cyclesField w).toNat) := by
  unfold decode; rw [h]; rfl

theorem decode_dispatch (h : opField w = 0x5) : decode c w = decodeDispatch w := by
  unfold decode; rw [h]; rfl

theorem decode_operandless {i : Instr} (hi : i ∈ operandless) (h : opField w = number i) :
    decode c w = decodeBare w i := by
  unfold decode
  rw [h]
  simp only [operandless, List.mem_cons, List.not_mem_nil, or_false] at hi
  rcases hi with rfl | rfl | rfl | rfl | rfl | rfl | rfl | rfl <;> rfl

theorem decode_reserved (h : opField w = 0xD ∨ opField w = 0xE ∨ opField w = 0xF) : decode c w = .error .illegal := by
  unfold decode
  rcases h with h | h | h <;> rw [h] <;> rfl

end

/-- The sixteen values of field `op` (R71). -/
theorem op_cases (op : BitVec 4) :
    op = 0x0 ∨ op = 0x1 ∨ op = 0x2 ∨ op = 0x3 ∨ op = 0x5 ∨ (∃ i ∈ operandless, op = number i) ∨
    (op = 0xD ∨ op = 0xE ∨ op = 0xF) := by
  revert op; decide

/-- The numbers of format N are 4 and 6 to 12, and no other format's (R71). -/
theorem number_operandless {i : Instr} (hi : i ∈ operandless) :
    (number i = 0x4#4 ∨ (0x6#4 ≤ number i ∧ number i ≤ 0xC#4)) ∧ number i ≠ 0x0#4 ∧ number i ≠ 0x1#4 ∧ number i ≠ 0x2#4 ∧
      number i ≠ 0x5#4 ∧ number i ≠ 0xD#4 ∧ number i ≠ 0xE#4 ∧ number i ≠ 0xF#4 := by
  revert i; decide

end Sys2Proof
end

section
/-! SUPPORT. Encoder and decoder are inverse (R79): each field of an encoded word is the operand placed there, and a word is
the concatenation of its fields. -/

namespace Sys2Proof

open Sys2Proof.Laws.OpField (opField_bare opField_bus getLsbD_place)

/-! ### Decode of encode -/

/-- The bits where a field was placed are the field. -/
theorem extractLsb'_place_self {n low : Nat} (v : BitVec n) (h : low + n ≤ 32) :
    (place n v low).extractLsb' low n = v := by
  apply BitVec.eq_of_getLsbD_eq
  intro i hi
  rw [BitVec.getLsbD_extractLsb', getLsbD_place]
  simp [hi, show low + i < 32 by omega]

/-- The bits apart from a placed field are zero. -/
theorem extractLsb'_place_apart {n low start len : Nat} (v : BitVec n) (h : start + len ≤ low ∨ low + n ≤ start) :
    (place n v low).extractLsb' start len = 0 := by
  apply BitVec.eq_of_getLsbD_eq
  intro i hi
  rw [BitVec.getLsbD_extractLsb', getLsbD_place]
  rcases h with h | h
  · simp [show start + i < low by omega]
  · simp [v.getLsbD_of_ge (start + i - low) (by omega)]

theorem cyclesField_bare (op : BitVec 4) : cyclesField (encodeBare op) = 0 :=
  extractLsb'_place_apart op (by decide)

theorem cyclesField_tick (n : Nat) : cyclesField (encodeTick n) = BitVec.ofNat 28 n := by
  simp [cyclesField, encodeTick, BitVec.extractLsb'_or, extractLsb'_place_self, extractLsb'_place_apart]

theorem fields_bus (op : BitVec 4) (a : Addr) (v : Byte) :
    addrField (encodeBus op a v) = a ∧ dataField (encodeBus op a v) = v ∧ lowField (encodeBus op a v) = 0 := by
  simp [addrField, dataField, lowField, encodeBus, BitVec.extractLsb'_or, extractLsb'_place_self,
    extractLsb'_place_apart]

theorem fields_raise (lines : BitVec 5) :
    raiseZeroField (encodeRaise lines) = 0 ∧ linesField (encodeRaise lines) = lines ∧
      lowField (encodeRaise lines) = 0 := by
  simp [raiseZeroField, linesField, lowField, encodeRaise, BitVec.extractLsb'_or, extractLsb'_place_self,
    extractLsb'_place_apart]

theorem fields_dispatch (i : Source) (p : Addr) :
    addrField (encodeDispatch i p) = p ∧ dispatchZeroField (encodeDispatch i p) = 0 ∧
      srcField (encodeDispatch i p) = BitVec.ofNat 3 i.index ∧ lowField (encodeDispatch i p) = 0 := by
  simp [addrField, dispatchZeroField, srcField, lowField, encodeDispatch, BitVec.extractLsb'_or,
    extractLsb'_place_self, extractLsb'_place_apart]

/-- Under distinct addresses the word of a read reads that register (R7, R74). -/
theorem decode_encode_rd {c : Cfg} (hc : c.wf) (r : Reg) : decode c (encode c (.rd r)) = .ok (.rd r) := by
  obtain ⟨ha, hd, hl⟩ := fields_bus 0x0 (c.addr r) 0
  rw [encode_rd, decode_rd (opField_bus _ _ _), decodeRd_eq_ok_iff, ha]
  exact ⟨⟨hl, hd⟩, r, Machine.regAt_addr hc r, rfl⟩

/-- Under distinct addresses the word of a write writes that byte to that register (R7, R74). -/
theorem decode_encode_wr {c : Cfg} (hc : c.wf) (r : Reg) (v : Byte) :
    decode c (encode c (.wr r v)) = .ok (.wr r v) := by
  obtain ⟨ha, hd, hl⟩ := fields_bus 0x1 (c.addr r) v
  rw [encode_wr, decode_wr (opField_bus _ _ _), decodeWr_eq_ok_iff, ha, hd]
  exact ⟨hl, r, Machine.regAt_addr hc r, rfl⟩

theorem decode_encode_raise (c : Cfg) (lines : BitVec 5) :
    decode c (encode c (.raise lines)) = .ok (.raise lines) := by
  obtain ⟨hz, hlines, hl⟩ := fields_raise lines
  rw [decode_raise (Laws.OpField.raise lines c), decodeRaise_eq_ok_iff]
  exact ⟨⟨hl, hz⟩, congrArg _ hlines⟩

/-- A cycle count of 28 bits comes back whole (R76). -/
theorem decode_encode_tick (c : Cfg) {n : Nat} (hn : n < 2 ^ 28) : decode c (encode c (.tick n)) = .ok (.tick n) := by
  rw [decode_tick (Laws.OpField.tick n c), encode, cyclesField_tick, BitVec.toNat_ofNat, Nat.mod_eq_of_lt hn]

theorem decode_encode_dispatch (c : Cfg) (i : Source) (p : Addr) :
    decode c (encode c (.dispatch i p)) = .ok (.dispatch i p) := by
  obtain ⟨hp, hz, hs, hl⟩ := fields_dispatch i p
  rw [decode_dispatch (Laws.OpField.dispatch i p c), encode, decodeDispatch_eq_ok_iff, hp, hs]
  exact ⟨⟨hl, hz⟩, i, Source.ofField_index i, rfl⟩

theorem decode_encode_operandless (c : Cfg) {i : Instr} (hi : i ∈ operandless) : decode c (encode c i) = .ok i := by
  rw [encode_operandless hi, decode_operandless hi (opField_bare _), decodeBare_eq_ok_iff]
  exact ⟨cyclesField_bare _, rfl⟩

/-- Settles O4, by the operation's format. -/
theorem decodeInvertsEncode : Obligations.DecodeInvertsEncode := by
  unfold Obligations.DecodeInvertsEncode
  intro c i hc hi
  cases i with
  | rdDivider => exact decode_encode_rd hc .divider
  | rdCounter => exact decode_encode_rd hc .counter
  | rdReload => exact decode_encode_rd hc .reload
  | rdControl => exact decode_encode_rd hc .control
  | rdRequest => exact decode_encode_rd hc .request
  | rdEnable => exact decode_encode_rd hc .enable
  | wrDivider v => exact decode_encode_wr hc .divider v
  | wrCounter v => exact decode_encode_wr hc .counter v
  | wrReload v => exact decode_encode_wr hc .reload v
  | wrControl v => exact decode_encode_wr hc .control v
  | wrRequest v => exact decode_encode_wr hc .request v
  | wrEnable v => exact decode_encode_wr hc .enable v
  | raise lines => exact decode_encode_raise c lines
  | tick n => exact decode_encode_tick c (of_decide_eq_true hi)
  | dispatch i p => exact decode_encode_dispatch c i p
  | _ => exact decode_encode_operandless c (by decide)

/-! ### Encode of decode -/

/-- A word is the fields of formats N and T side by side (R72, R76). -/
theorem fields_append_bare (w : Word) : opField w ++ cyclesField w = w :=
  (BitVec.extractLsb'_append_extractLsb'_eq_extractLsb' rfl).trans BitVec.extractLsb'_eq_self

/-- A word is the fields of format B side by side (R73). -/
theorem fields_append_bus (w : Word) : opField w ++ addrField w ++ dataField w ++ lowField w = w := by
  simp only [opField, addrField, dataField, lowField, BitVec.extractLsb'_append_extractLsb'_eq_extractLsb']
  exact BitVec.extractLsb'_eq_self

/-- A word is the fields of format R side by side (R75). -/
theorem fields_append_raise (w : Word) : opField w ++ raiseZeroField w ++ linesField w ++ lowField w = w := by
  simp only [opField, raiseZeroField, linesField, lowField, BitVec.extractLsb'_append_extractLsb'_eq_extractLsb']
  exact BitVec.extractLsb'_eq_self

/-- A word is the fields of format D side by side (R77). -/
theorem fields_append_dispatch (w : Word) :
    opField w ++ addrField w ++ dispatchZeroField w ++ srcField w ++ lowField w = w := by
  simp only [opField, addrField, dispatchZeroField, srcField, lowField,
    BitVec.extractLsb'_append_extractLsb'_eq_extractLsb']
  exact BitVec.extractLsb'_eq_self

theorem wellFormed_rd (r : Reg) : (Instr.rd r).wellFormed = true := by
  cases r <;> rfl

theorem wellFormed_wr (r : Reg) (v : Byte) : (Instr.wr r v).wellFormed = true := by
  cases r <;> rfl

theorem wellFormed_operandless {i : Instr} (hi : i ∈ operandless) : i.wellFormed = true := by
  revert i; decide

/-- Settles O5, by the value of field `op`: the checked fields of the word are the zeros the encoder places. -/
theorem encodeInvertsDecode : Obligations.EncodeInvertsDecode := by
  unfold Obligations.EncodeInvertsDecode
  intro c w j hj
  rcases op_cases (opField w) with h | h | h | h | h | ⟨i, hi, h⟩ | h
  · rw [decode_rd h, decodeRd_eq_ok_iff] at hj
    obtain ⟨⟨hl, hd⟩, r, hr, rfl⟩ := hj
    have hw := fields_append_bus w
    rw [h, hd, hl, ← Machine.addr_of_regAt hr] at hw
    exact ⟨wellFormed_rd r, by rw [encode_rd, encodeBus_eq_append]; exact hw⟩
  · rw [decode_wr h, decodeWr_eq_ok_iff] at hj
    obtain ⟨hl, r, hr, rfl⟩ := hj
    have hw := fields_append_bus w
    rw [h, hl, ← Machine.addr_of_regAt hr] at hw
    exact ⟨wellFormed_wr r _, by rw [encode_wr, encodeBus_eq_append]; exact hw⟩
  · rw [decode_raise h, decodeRaise_eq_ok_iff] at hj
    obtain ⟨⟨hl, hz⟩, rfl⟩ := hj
    have hw := fields_append_raise w
    rw [h, hz, hl] at hw
    exact ⟨rfl, by rw [encode, encodeRaise_eq_append]; exact hw⟩
  · rw [decode_tick h] at hj
    cases hj
    have hw := fields_append_bare w
    rw [h] at hw
    refine ⟨decide_eq_true (cyclesField w).isLt, ?_⟩
    rw [encode, encodeTick_eq_append, BitVec.ofNat_toNat, BitVec.setWidth_eq]
    exact hw
  · rw [decode_dispatch h, decodeDispatch_eq_ok_iff] at hj
    obtain ⟨⟨hl, hz⟩, i, hs, rfl⟩ := hj
    have hw := fields_append_dispatch w
    rw [h, hz, hl, ← Source.index_of_ofField hs] at hw
    exact ⟨rfl, by rw [encode, encodeDispatch_eq_append]; exact hw⟩
  · rw [decode_operandless hi h, decodeBare_eq_ok_iff] at hj
    obtain ⟨hz, rfl⟩ := hj
    have hw := fields_append_bare w
    rw [h, hz] at hw
    exact ⟨wellFormed_operandless hi, by rw [encode_operandless hi, encodeBare_eq_append]; exact hw⟩
  · rw [decode_reserved h] at hj
    cases hj

end Sys2Proof
end

section
/-! SUPPORT. Which words are refused, and what a refusal does (R80, R81). -/

namespace Sys2Proof.Machine

/-- A step with a word waiting that spells an operation performs it (R70, R79). -/
theorem step_of_decoded {s : State} {w : Word} {rest : List Word} {i : Instr} (hp : s.port = w :: rest)
    (hd : decode s.cfg w = .ok i) : step s = exec i (s.withPort rest) := by
  simp only [step, fetch_of_port hp, State.withPort_cfg, hd]

/-- A step with a word waiting that spells none refuses it (R10, R80, R81). -/
theorem step_of_refused {s : State} {w : Word} {rest : List Word} {e : RefuseReason} (hp : s.port = w :: rest)
    (hd : decode s.cfg w = .error e) : step s = .next (refuse e (s.withPort rest)) := by
  simp only [step, fetch_of_port hp, State.withPort_cfg, hd]

/-- Settles O1: the word at the head of the port is the one a fetch answers with. -/
theorem stepRunsDecodedCommand : Obligations.StepRunsDecodedCommand := by
  unfold Obligations.StepRunsDecodedCommand
  exact fun _ _ _ _ => step_of_decoded

/-- A refused word changes nothing but the port and the result (R10). -/
theorem refused_changes_nothing {s : State} {w : Word} {rest : List Word} {e : RefuseReason}
    (hp : s.port = w :: rest) (hd : decode s.cfg w = .error e) :
    ∃ t, step s = .next t ∧ t.block = s.block ∧ t.env = s.env ∧ t.cfg = s.cfg ∧ t.result = .refused e :=
  ⟨_, step_of_refused hp hd, rfl, rfl, rfl, rfl⟩

/-- The words that are not mine (R81). -/
theorem decode_eq_notMine_iff (c : Cfg) (w : Word) :
    decode c w = .error .notMine ↔
      ((opField w = 0x0 ∧ dataField w = 0) ∨ opField w = 0x1) ∧ lowField w = 0 ∧
        ∀ r : Reg, c.addr r ≠ addrField w := by
  rw [← regAt_eq_none_iff]
  rcases op_cases (opField w) with h | h | h | h | h | ⟨i, hi, h⟩ | h
  · simp [decode_rd h, decodeRd_eq_error_iff, h, and_assoc, and_left_comm]
  · simp [decode_wr h, decodeWr_eq_error_iff, h]
  · simp [decode_raise h, decodeRaise_eq_error_iff, h]
  · simp [decode_tick h, h]
  · simp [decode_dispatch h, decodeDispatch_eq_error_iff, h]
  · simp [decode_operandless hi h, decodeBare_eq_error_iff, h, number_operandless hi]
  · rw [decode_reserved h]
    rcases h with h | h | h <;> simp [h]

/-- The words that are illegal (R80), by the fields of the formats. -/
theorem decode_eq_illegal_iff (c : Cfg) (w : Word) :
    decode c w = .error .illegal ↔
      (opField w = 0xD ∨ opField w = 0xE ∨ opField w = 0xF) ∨
      ((opField w = 0x4 ∨ (0x6 ≤ opField w ∧ opField w ≤ 0xC)) ∧ cyclesField w ≠ 0) ∨
      ((opField w = 0x0 ∨ opField w = 0x1 ∨ opField w = 0x2 ∨ opField w = 0x5) ∧ lowField w ≠ 0) ∨
      (opField w = 0x0 ∧ dataField w ≠ 0) ∨
      (opField w = 0x2 ∧ raiseZeroField w ≠ 0) ∨
      (opField w = 0x5 ∧ (dispatchZeroField w ≠ 0 ∨ 4 < (srcField w).toNat)) := by
  rcases op_cases (opField w) with h | h | h | h | h | ⟨i, hi, h⟩ | h
  · simp [decode_rd h, decodeRd_eq_error_iff, h, imp_iff_not_or]
  · simp [decode_wr h, decodeWr_eq_error_iff, h]
  · simp [decode_raise h, decodeRaise_eq_error_iff, h, imp_iff_not_or]
  · simp [decode_tick h, h]
  · simp [decode_dispatch h, decodeDispatch_eq_error_iff, h, imp_iff_not_or, or_assoc]
  · simp [decode_operandless hi h, decodeBare_eq_error_iff, h, number_operandless hi]
  · exact iff_of_true (decode_reserved h) (.inl h)

/-- Settles O6: the illegal words by the value of field `op`, and what any refusal leaves. -/
theorem illegalWordsRefused : Obligations.IllegalWordsRefused := by
  unfold Obligations.IllegalWordsRefused
  exact fun s w _ hp => ⟨decode_eq_illegal_iff s.cfg w, refused_changes_nothing hp⟩

/-- Settles O7: the foreign words by the value of field `op`, and what any refusal leaves. -/
theorem foreignBusAccessNotMine : Obligations.ForeignBusAccessNotMine := by
  unfold Obligations.ForeignBusAccessNotMine
  exact fun s w _ hp => ⟨decode_eq_notMine_iff s.cfg w, refused_changes_nothing hp⟩

end Sys2Proof.Machine
end

section
/-! SUPPORT. The Register Bank: every read and every write of a register as one operation (R29, R74), and what raising
request lines one set after the other comes to (R64, R100). -/

namespace Sys2Proof.Machine

/-- A read of a register reports its read rule (R29, R12). -/
theorem exec_rd (r : Reg) (s : State) : exec (.rd r) s = .next (s.withResult (.byte (readReg s.cfg r s.block))) := by
  cases r <;> rfl

/-- A write of a register leaves its write rule (R29, R12). -/
theorem exec_wr (r : Reg) (v : Byte) (s : State) :
    exec (.wr r v) s = .next (finish (writeReg r v s.block) .nothing s) := by
  cases r <;> rfl

/-- Settles O10: the write rule of one register seen through the read rule of another. -/
theorem readAfterWriteOfTheBank : Obligations.ReadAfterWriteOfTheBank := by
  unfold Obligations.ReadAfterWriteOfTheBank
  intro s r r' v
  refine ⟨_, _, _, exec_wr r v s, exec_rd r' _, exec_rd r' s, fun hne => ?_, fun heq => ?_⟩
  · simp [readReg_writeReg, hne]
  · have hkept : readReg s.cfg r' (writeReg r v s.block) = keptByte s.cfg r v := by
      rw [readReg_writeReg, if_pos heq]
    rw [State.withResult_result, finish_cfg, finish_block, hkept]
    cases r <;> rfl

/-- `RAISE` ORs its lines into the request mask (R100). -/
theorem exec_raise (lines : BitVec 5) (s : State) :
    exec (.raise lines) s = .next (finish (orRequest (linesMask lines) s.block) .nothing s) := rfl

/-- Two ORs into the request mask are one (R64). -/
theorem orRequest_orRequest (m m' : Byte) (b : Block) : orRequest m' (orRequest m b) = orRequest (m ||| m') b := by
  simp only [orRequest, BitVec.or_assoc]

/-- Lines raised together are the OR of their masks (R78). -/
theorem linesMask_or (lines lines' : BitVec 5) : linesMask (lines ||| lines') = linesMask lines ||| linesMask lines' :=
  BitVec.setWidth_or

/-- The mask of a set of lines has no bit above bit 4 (R78). -/
theorem linesMask_getLsbD (lines : BitVec 5) (k : Nat) :
    (linesMask lines).getLsbD k = (decide (k < 5) && lines.getLsbD k) := by
  by_cases hk : k < 5
  · simp [linesMask, hk, show k < 8 by omega]
  · simp [linesMask, hk, lines.getLsbD_of_ge k (by omega)]

/-- With no lines raised the block stays (R100). -/
theorem orRequest_linesMask_zero (b : Block) : orRequest (linesMask 0) b = b := by
  simp [orRequest, linesMask]

/-- Of two operations' ends the later one stays (R12). -/
theorem finish_finish (b b' : Block) (r r' : Result) (s : State) : finish b' r' (finish b r s) = finish b' r' s := rfl

/-- Lines raised after others come to both sets raised together (R100). -/
theorem exec_raise_after_raise (lines lines' : BitVec 5) (s : State) :
    exec (.raise lines') (finish (orRequest (linesMask lines) s.block) .nothing s) = exec (.raise (lines ||| lines')) s := by
  rw [exec_raise, exec_raise, finish_block, orRequest_orRequest, linesMask_or, finish_finish]

/-- Settles O11: the bits of the mask, and the union of two sets by the OR of their masks. -/
theorem raiseOnlySetsRequestLines : Obligations.RaiseOnlySetsRequestLines := by
  unfold Obligations.RaiseOnlySetsRequestLines
  intro s lines lines'
  refine ⟨encodeRaise_eq_append lines, _, _, exec_raise lines s, rfl, fun k => ?_,
    exec_raise_after_raise lines lines' s, exec_raise _ s, ?_, ?_⟩
  · rw [finish_block, orRequest_request, BitVec.getLsbD_or, linesMask_getLsbD]
  · rw [BitVec.or_comm, exec_raise]
  · rintro rfl
    rw [finish_block, orRequest_linesMask_zero]

/-- Settles O8, register by register. -/
theorem registerReadsReturnRegisters : Obligations.RegisterReadsReturnRegisters := by
  unfold Obligations.RegisterReadsReturnRegisters
  exact fun s => ⟨exec_rd .divider s, exec_rd .counter s, exec_rd .reload s, exec_rd .control s, exec_rd .request s,
    exec_rd .enable s⟩

/-- Settles O9, register by register. -/
theorem registerWritesStoreAndNothingElse : Obligations.RegisterWritesStoreAndNothingElse := by
  unfold Obligations.RegisterWritesStoreAndNothingElse
  exact fun s v => ⟨exec_wr .divider v s, exec_wr .counter v s, exec_wr .reload v s, exec_wr .control v s,
    exec_wr .request v s, exec_wr .enable v s⟩

end Sys2Proof.Machine
end

section
/-! SUPPORT. `TICK` in closed form (R110, R112): the loop counted in increments, the programmable counter after any number
of them, and what a tick of an enabled timer leaves. The statements of the TimerUnit follow from these. -/

namespace Sys2Proof.Machine

/-- The programmable counter after `k` increments from `c` (R112): it counts up to 0xFF, then cycles from the reload value
to 0xFF. -/
def counterAfter (reload c : Byte) (k : Nat) : Byte :=
  BitVec.ofNat 8 (if k ≤ 255 - c.toNat then c.toNat + k
    else reload.toNat + (k - (256 - c.toNat)) % (256 - reload.toNat))

theorem counterAfter_toNat (reload c : Byte) (k : Nat) :
    (counterAfter reload c k).toNat = if k ≤ 255 - c.toNat then c.toNat + k
      else reload.toNat + (k - (256 - c.toNat)) % (256 - reload.toNat) := by
  have hmod := Nat.mod_lt (k - (256 - c.toNat)) (y := 256 - reload.toNat) (Nat.sub_pos_of_lt reload.isLt)
  rw [counterAfter, BitVec.toNat_ofNat, Nat.mod_eq_of_lt (by split <;> omega)]

@[simp] theorem counterAfter_zero (reload c : Byte) : counterAfter reload c 0 = c := by
  simp [counterAfter]

/-- The increment that finds 0xFF starts the count again at the reload value (R110). -/
theorem counterAfter_succ_of_full (reload : Byte) (k : Nat) :
    counterAfter reload 0xFF (k + 1) = counterAfter reload reload k := by
  have hfull : counterAfter reload 0xFF (k + 1) = BitVec.ofNat 8 (reload.toNat + k % (256 - reload.toNat)) := by
    simp [counterAfter]
  rw [hfull, counterAfter]
  split
  case isTrue h => rw [Nat.mod_eq_of_lt (by omega)]
  case isFalse h => rw [Nat.mod_eq_sub_mod (by omega)]

/-- An increment that does not find 0xFF adds one (R110). -/
theorem counterAfter_succ_of_ne {c : Byte} (hc : c ≠ 0xFF) (reload : Byte) (k : Nat) :
    counterAfter reload c (k + 1) = counterAfter reload (c + 1) k := by
  have hc1 : (c + 1).toNat = c.toNat + 1 ∧ c.toNat < 255 := by bv_omega
  apply BitVec.eq_of_toNat_eq
  simp only [counterAfter_toNat, hc1.1]
  rw [show k + 1 - (256 - c.toNat) = k - (256 - (c.toNat + 1)) by omega]
  split <;> split <;> omega

/-- Increments after increments. -/
theorem counterAfter_add (reload c : Byte) (j k : Nat) :
    counterAfter reload c (j + k) = counterAfter reload (counterAfter reload c j) k := by
  induction j generalizing c with
  | zero => simp
  | succ j ih =>
    rw [Nat.add_right_comm]
    by_cases hc : c = 0xFF
    · rw [hc, counterAfter_succ_of_full, counterAfter_succ_of_full, ih]
    · rw [counterAfter_succ_of_ne hc, counterAfter_succ_of_ne hc, ih]

/-- The increment that overflows leaves the reload value (R113). -/
theorem counterAfter_first_overflow (reload c : Byte) : counterAfter reload c (256 - c.toNat) = reload := by
  apply BitVec.eq_of_toNat_eq
  rw [counterAfter_toNat, if_neg (by omega), Nat.sub_self, Nat.zero_mod, Nat.add_zero]

/-- Past an overflow the programmable counter stays at or above the reload value (R116). -/
theorem le_counterAfter {c : Byte} {k : Nat} (hk : 255 - c.toNat < k) (reload : Byte) :
    reload ≤ counterAfter reload c k := by
  rw [BitVec.le_def, counterAfter_toNat, if_neg (Nat.not_le.mpr hk)]
  exact Nat.le_add_right _ _

/-- Among `j + k` increments one overflows if and only if one of the first `j` does or one of the last `k`. -/
theorem overflow_add (reload c : Byte) (j k : Nat) :
    255 - c.toNat < j + k ↔ 255 - c.toNat < j ∨ 255 - (counterAfter reload c j).toNat < k := by
  by_cases hj : 255 - c.toNat < j
  · exact iff_of_true (Nat.lt_add_right k hj) (.inl hj)
  · rw [counterAfter_toNat, if_pos (Nat.le_of_not_lt hj)]
    omega

theorem increment_of_full (per acc : Nat) (reload : Byte) (ov : Bool) :
    increment per reload ⟨acc, 0xFF, ov⟩ = ⟨acc - per, reload, true⟩ := rfl

theorem increment_of_ne {c : Byte} (hc : c ≠ 0xFF) (per acc : Nat) (reload : Byte) (ov : Bool) :
    increment per reload ⟨acc, c, ov⟩ = ⟨acc - per, c + 1, ov⟩ := if_neg hc

/-- The loop of R110 on `k` increments' worth of cycles and a rest: it makes `k` increments and leaves the rest (R112). -/
theorem tickLoop_eq_counterAfter {per rest : Nat} (hrest : rest < per) (reload c : Byte) (ov : Bool) (k fuel : Nat) :
    tickLoop per reload (k + fuel) ⟨k * per + rest, c, ov⟩ =
      ⟨rest, counterAfter reload c k, ov || decide (255 - c.toNat < k)⟩ := by
  induction k generalizing c ov with
  | zero => rw [tickLoop_done (by simpa using hrest)]; simp
  | succ k ih =>
    have hacc : (k + 1) * per + rest - per = k * per + rest := by rw [Nat.succ_mul]; omega
    rw [Nat.add_right_comm, tickLoop_more (by simp only [Nat.succ_mul]; omega)]
    by_cases hc : c = 0xFF
    · rw [hc, increment_of_full, hacc, ih, counterAfter_succ_of_full]; simp
    · have hc1 : (c + 1).toNat = c.toNat + 1 ∧ c.toNat < 255 := by bv_omega
      have hov : decide (255 - (c + 1).toNat < k) = decide (255 - c.toNat < k + 1) := decide_eq_decide.mpr (by omega)
      rw [increment_of_ne hc, hacc, ih, counterAfter_succ_of_ne hc, hov]

/-- How many increments fit into a tick of an enabled timer (R112). -/
def increments (n : Nat) (b : Block) : Nat := (b.sub.toNat + n) / rate (selector b)

/-- What the loop of a tick ends with (R112). -/
theorem tickRun_eq (n : Nat) (b : Block) :
    tickRun n b = ⟨(b.sub.toNat + n) % rate (selector b), counterAfter b.reloadReg b.counterReg (increments n b),
      decide (255 - b.counterReg.toNat < increments n b)⟩ := by
  have hcycles : increments n b * rate (selector b) + (b.sub.toNat + n) % rate (selector b) = b.sub.toNat + n :=
    Nat.div_add_mod' _ _
  have hfuel : increments n b + (b.sub.toNat + n - increments n b) = b.sub.toNat + n :=
    Nat.add_sub_of_le (Nat.div_le_self _ _)
  have hloop := tickLoop_eq_counterAfter (Nat.mod_lt (b.sub.toNat + n) (rate_pos (selector b))) b.reloadReg b.counterReg
    false (increments n b) (b.sub.toNat + n - increments n b)
  rwa [hfuel, hcycles, Bool.false_or] at hloop

/-- A tick of an enabled timer in closed form (R110, R112). -/
theorem tick_eq_of_enabled {b : Block} (h : timerEnabled b = true) (n : Nat) :
    tick n b = { b with
      counter := b.counter + BitVec.ofNat 16 n
      sub := BitVec.ofNat 10 ((b.sub.toNat + n) % rate (selector b))
      counterReg := counterAfter b.reloadReg b.counterReg (increments n b) } := by
  rw [tick_of_enabled h, tickRun_eq]

/-- The programmable counter after a tick of an enabled timer (R112). -/
theorem tick_counterReg_of_enabled {b : Block} (h : timerEnabled b = true) (n : Nat) :
    (tick n b).counterReg = counterAfter b.reloadReg b.counterReg (increments n b) := by
  rw [tick_eq_of_enabled h]

/-- An enabled timer overflows when the increments lead past 0xFF (R112). -/
theorem tickOverflow_eq_of_enabled {b : Block} (h : timerEnabled b = true) (n : Nat) :
    tickOverflow n b = decide (255 - b.counterReg.toNat < increments n b) := by
  rw [tickOverflow_of_enabled h, tickRun_eq]

/-- `TICK` leaves the block and reports the overflow that `tick` and `tickOverflow` give (R110). -/
theorem exec_tick (n : Nat) (s : State) :
    exec (.tick n) s = .next (finish (tick n s.block) (.overflow (tickOverflow n s.block)) s) := rfl

/-- Settles O12: the rates at the four selectors. -/
theorem rateTable : Obligations.RateTable := by
  unfold Obligations.RateTable
  decide

/-- Settles O13: the disabled timer, and the closed form of the enabled one. -/
theorem tickClosedForm : Obligations.TickClosedForm := by
  unfold Obligations.TickClosedForm
  refine fun s n => ⟨fun hoff => ?_, ?_⟩
  · rw [exec_tick, tick_of_disabled hoff, tickOverflow_of_disabled hoff]; rfl
  · rintro per k T M hon rfl rfl rfl rfl
    rw [exec_tick, tick_eq_of_enabled hon, tickOverflow_eq_of_enabled hon]; rfl

end Sys2Proof.Machine
end

section
/-! SUPPORT. The periods of the timer (R113) and its laws (R116): when an overflow comes, and ticks one after another. -/

namespace Sys2Proof.Machine

/-- An overflow comes exactly when the increments left to it fit (R113). -/
theorem tickOverflow_iff {b : Block} (h : timerEnabled b = true) (n : Nat) :
    tickOverflow n b = true ↔ 256 - b.counterReg.toNat ≤ increments n b := by
  have hc := b.counterReg.isLt
  rw [tickOverflow_eq_of_enabled h, decide_eq_true_iff]
  omega

/-- From `sub` 0, so many increments fit as their cycles do (R113). -/
theorem le_increments_iff {b : Block} (hsub : b.sub = 0) (k n : Nat) :
    k ≤ increments n b ↔ k * rate (selector b) ≤ n := by
  simp [increments, hsub, Nat.le_div_iff_mul_le (rate_pos _)]

/-- From `sub` 0, an overflow comes exactly when the cycles of the increments left to it do (R113). -/
theorem tickOverflow_iff_of_sub_zero {b : Block} (h : timerEnabled b = true) (hsub : b.sub = 0) (n : Nat) :
    tickOverflow n b = true ↔ (256 - b.counterReg.toNat) * rate (selector b) ≤ n := by
  rw [tickOverflow_iff h, le_increments_iff hsub]

/-- A tick that ends with an increment leaves no cycles over (R113). -/
theorem tick_sub_eq_zero {b : Block} (h : timerEnabled b = true) {n k : Nat}
    (hk : b.sub.toNat + n = k * rate (selector b)) : (tick n b).sub = 0 := by
  rw [tick_eq_of_enabled h, hk]
  simp

/-- The increment that overflows, when it is the last of its tick, leaves the reload value (R113). -/
theorem tick_counterReg_at_overflow {b : Block} (h : timerEnabled b = true) {n : Nat}
    (hk : increments n b = 256 - b.counterReg.toNat) : (tick n b).counterReg = b.reloadReg := by
  rw [tick_counterReg_of_enabled h, hk, counterAfter_first_overflow]

/-- Settles O14: each case by when the increments left to the overflow fit. -/
theorem timerPeriods : Obligations.TimerPeriods := by
  unfold Obligations.TimerPeriods
  intro s n hon
  have hov := tickOverflow_iff hon n
  have hovSub := fun hsub => tickOverflow_iff_of_sub_zero hon hsub n
  refine ⟨_, _, exec_tick n s, rfl, hov, fun hk => ?_, fun hc hsub => ?_, fun hc _ hsub => ?_, fun hc hsub hctl => ?_⟩
  · have hreload := tick_counterReg_at_overflow hon hk
    refine ⟨hov.mpr hk.ge, hreload, tick_reloadReg n s.block, tick_sub_eq_zero hon, fun m => ?_⟩
    have hon' : timerEnabled (tick n s.block) = true := by rwa [timerEnabled_tick]
    have hnext := tickOverflow_iff hon' m
    have hnextSub := fun hsub => tickOverflow_iff_of_sub_zero hon' hsub m
    rw [hreload, increments, selector_tick] at hnext
    rw [hreload, selector_tick] at hnextSub
    exact ⟨_, _, exec_tick m _, rfl, hnext, hnextSub⟩
  · rw [← hc]; exact hovSub hsub
  · rw [hovSub hsub, hc]
    simp [selector]
  · rw [hovSub hsub, hc, selector, hctl]
    rfl

/-- What a tick of an enabled timer leaves in `sub`: nothing of the rest is cut off (R110, R22). -/
theorem tick_sub_toNat {b : Block} (h : timerEnabled b = true) (n : Nat) :
    (tick n b).sub.toNat = (b.sub.toNat + n) % rate (selector b) := by
  have hrest := Nat.mod_lt (b.sub.toNat + n) (rate_pos (selector b))
  have hle := rate_le (selector b)
  rw [tick_eq_of_enabled h, BitVec.toNat_ofNat, Nat.mod_eq_of_lt (by omega)]

/-- The increments of two ticks in turn are those of one tick of all their cycles (R116). -/
theorem increments_add {b : Block} (h : timerEnabled b = true) (m n : Nat) :
    increments (m + n) b = increments m b + increments n (tick m b) := by
  have hcycles := Nat.mod_add_div (b.sub.toNat + m) (rate (selector b))
  rw [increments, increments, increments, selector_tick, tick_sub_toNat h, Nat.add_comm (_ / _),
    ← Nat.add_mul_div_left _ _ (rate_pos _)]
  congr 1
  omega

/-- The free-running counter's advances add up (R116). -/
theorem tick_counter_add (m n : Nat) (b : Block) :
    (tick m b).counter + BitVec.ofNat 16 n = b.counter + BitVec.ofNat 16 (m + n) := by
  rw [tick_counter, BitVec.add_assoc, BitVec.ofNat_add]

/-- Ticks in turn leave what one tick of all their cycles leaves (R116). -/
theorem tick_tick (m n : Nat) (b : Block) : tick n (tick m b) = tick (m + n) b := by
  cases h : timerEnabled b with
  | false =>
    rw [tick_of_disabled (by rwa [timerEnabled_tick]), tick_counter_add, tick_of_disabled h, tick_of_disabled h]
  | true =>
    rw [tick_eq_of_enabled (by rwa [timerEnabled_tick]), tick_counter_add, tick_sub_toNat h, selector_tick, Nat.mod_add_mod,
      Nat.add_assoc, tick_reloadReg, tick_counterReg_of_enabled h, ← counterAfter_add, ← increments_add h, tick_eq_of_enabled h,
      tick_eq_of_enabled h]

/-- One tick overflows exactly when one of the ticks its cycles are split into does (R116). -/
theorem tickOverflow_add (m n : Nat) (b : Block) :
    tickOverflow (m + n) b = (tickOverflow m b || tickOverflow n (tick m b)) := by
  cases h : timerEnabled b with
  | false =>
    rw [tickOverflow_of_disabled h, tickOverflow_of_disabled h, tickOverflow_of_disabled (by rwa [timerEnabled_tick])]
    rfl
  | true =>
    rw [tickOverflow_eq_of_enabled h, tickOverflow_eq_of_enabled h,
      tickOverflow_eq_of_enabled (by rwa [timerEnabled_tick]), tick_counterReg_of_enabled h,
      increments_add h, ← Bool.decide_or]
    exact decide_eq_decide.mpr (overflow_add _ _ _ _)

/-- After an overflow the programmable counter is at or above the reload value (R116). -/
theorem reloadReg_le_counterReg_of_tickOverflow {b : Block} {n : Nat} (hov : tickOverflow n b = true) :
    b.reloadReg ≤ (tick n b).counterReg := by
  cases h : timerEnabled b with
  | false => rw [tickOverflow_of_disabled h] at hov; exact absurd hov Bool.false_ne_true
  | true =>
    rw [tickOverflow_eq_of_enabled h, decide_eq_true_iff] at hov
    rw [tick_counterReg_of_enabled h]
    exact le_counterAfter hov _

/-- The free-running counter after any number of ticks (R116). -/
theorem foldl_tick_counter (cs : List Nat) (b : Block) :
    (cs.foldl (fun x c => tick c x) b).counter = b.counter + BitVec.ofNat 16 cs.sum := by
  induction cs generalizing b with
  | nil => simp
  | cons c cs ih => rw [List.foldl_cons, ih, tick_counter_add, List.sum_cons]

/-- 256 more in the counter is one more in its high byte (R114). -/
theorem hi_add_256 (p : Addr) : hi (p + 256) = hi p + 1 := by
  apply BitVec.eq_of_toNat_eq
  simp only [hi, BitVec.extractLsb'_toNat, BitVec.toNat_add, Nat.shiftRight_eq_div_pow, BitVec.ofNat_eq_ofNat,
    BitVec.toNat_ofNat]
  omega

/-- Settles O15: the laws of `tick` and `tickOverflow`, clause by clause. -/
theorem timerLaws : Obligations.TimerLaws := by
  unfold Obligations.TimerLaws
  refine ⟨fun s n => exec_tick n s, exec_rd .divider, fun b cs hcs => ?_, fun s v => ?_, fun b n hoff => ?_,
    fun b m n => ⟨tick_tick m n b, tickOverflow_add m n b⟩, fun b n => reloadReg_le_counterReg_of_tickOverflow⟩
  · rw [foldl_tick_counter, hcs]
    exact hi_add_256 b.counter
  · refine ⟨_, _, exec_wr .divider v s, exec_rd .divider _, ?_⟩
    rw [State.withResult_result, finish_block, readReg_writeReg, if_pos rfl]
    rfl
  · exact ⟨tick_of_disabled hoff n, tickOverflow_of_disabled hoff n⟩

end Sys2Proof.Machine
end

section
/-! SUPPORT. The InterruptController: which source an evaluation finds (R125), its vector (R126), and the four operations on
Master Enable and the delayed enable (R128 to R131). -/

namespace Sys2Proof.Machine

/-- Settles O16, source by source. -/
theorem vectorTable : Obligations.VectorTable := by
  unfold Obligations.VectorTable
  exact ⟨rfl, rfl, rfl, rfl, rfl, fun i => by cases i <;> rfl⟩

/-- The delayed enable resolved, armed or not (R131). -/
theorem resolveEnable_eq (b : Block) :
    resolveEnable b = { b with ime := b.ime || b.eiPending, eiPending := false } := by
  obtain ⟨_, _, _, _, _, _, _, ime, eiPending, _, _⟩ := b
  cases eiPending <;> simp [resolveEnable]

/-- `RESOLVE` as an operation on the block (R131). -/
theorem exec_resolve (s : State) : exec .resolve s = .next (finish (resolveEnable s.block) .nothing s) := rfl

/-- Settles O20, operation by operation. -/
theorem masterEnableRequests : Obligations.MasterEnableRequests := by
  unfold Obligations.MasterEnableRequests
  refine fun s => ⟨rfl, rfl, rfl, ?_⟩
  rw [exec_resolve, resolveEnable_eq]
  rfl

/-- `PENDVEC` reports what the evaluation finds (R125). -/
theorem exec_pendvec (s : State) : exec .pendvec s = .next (s.withResult (.source (pendingSource s.block))) := rfl

/-- Settles O17: when the evaluation finds none, and what it says of a source it finds. -/
theorem priorityEvaluation : Obligations.PriorityEvaluation := by
  unfold Obligations.PriorityEvaluation
  refine fun s => ⟨rfl, _, exec_pendvec s, pendingSource_eq_none_iff s.block, fun i hi => ?_⟩
  obtain ⟨-, hbit, hlower⟩ := (pendingSource_eq_some_iff s.block i).mp hi
  simp only [pend5_getLsbD] at hbit hlower
  obtain ⟨hreq, hen⟩ := Bool.and_eq_true_iff.mp hbit
  exact ⟨hreq, hen, hlower⟩

/-- The source of least index whose bit is set in a mask (R125). -/
def LeastIn (m : Byte) (i : Source) : Prop :=
  m.getLsbD i.index = true ∧ ∀ j : Source, j.index < i.index → m.getLsbD j.index = false

/-- The bits of a mask above the five sources do not count (R28, R125). -/
theorem getLsbD_sources (m : Byte) (i : Source) : (m &&& 0x1F).getLsbD i.index = m.getLsbD i.index := by
  cases i <;> simp [Source.index]

/-- Nor do they for the least source. -/
theorem leastIn_sources {m : Byte} {i : Source} : LeastIn (m &&& 0x1F) i ↔ LeastIn m i := by
  simp only [LeastIn, getLsbD_sources]

/-- No source in a mask is below the least one. -/
theorem LeastIn.index_le {m : Byte} {i j : Source} (h : LeastIn m i) (hj : m.getLsbD j.index = true) :
    i.index ≤ j.index := by
  by_contra hlt
  rw [h.2 j (by omega)] at hj
  exact Bool.false_ne_true hj

/-- A source is known by its bit index (R161). -/
theorem source_eq_of_index_eq {i j : Source} (h : i.index = j.index) : i = j :=
  Option.some.inj (by rw [← Source.ofField_index i, h, Source.ofField_index])

/-- A mask has one least source. -/
theorem LeastIn.unique {m : Byte} {i j : Source} (hi : LeastIn m i) (hj : LeastIn m j) : i = j :=
  source_eq_of_index_eq (Nat.le_antisymm (hi.index_le hj.1) (hj.index_le hi.1))

/-- What an evaluation finds is the least source pending and enabled (R125). -/
theorem leastIn_of_pendingSource {b : Block} {i : Source} (h : pendingSource b = some i) : LeastIn (pend5 b) i :=
  ((pendingSource_eq_some_iff b i).mp h).2

/-- With Master Enable made 1, an evaluation finds a source where one is pending and enabled (R125, R128). -/
theorem pendingSource_enableNow {b : Block} {i : Source} (hi : (pend5 b).getLsbD i.index = true) :
    ∃ j, pendingSource (enableNow b) = some j ∧ LeastIn (pend5 b) j := by
  cases h : pendingSource (enableNow b) with
  | some j => exact ⟨j, rfl, leastIn_of_pendingSource (b := enableNow b) h⟩
  | none =>
    have hzero : pend5 b = 0 := ((pendingSource_eq_none_iff _).mp h).resolve_left nofun
    simp [hzero] at hi

end Sys2Proof.Machine
end

section
/-! SUPPORT. The dispatch as two writes on the bus (R127, R52): the clearing of Master Enable and the moves of `pc` and `sp`
do not meet what the writes touch. -/

namespace Sys2Proof.Machine

/-- The state with another stack pointer. -/
def State.withSp (s : State) (q : Addr) : State := s.withEnv { s.env with sp := q }

/-- The state with Master Enable cleared (R129). -/
def State.imeCleared (s : State) : State := s.withBlock (disableNow s.block)

@[simp] theorem State.withSp_sp (s : State) (q : Addr) : (s.withSp q).env.sp = q := rfl
@[simp] theorem State.withSp_withSp (s : State) (q q' : Addr) : (s.withSp q).withSp q' = s.withSp q' := rfl
@[simp] theorem State.imeCleared_env (s : State) : s.imeCleared.env = s.env := rfl

/-- A bus write does not look at the stack pointer (R52). -/
theorem memWrite_withSp (a q : Addr) (v : Byte) (s : State) :
    memWrite a v (s.withSp q) = (memWrite a v s).withSp q := by
  unfold memWrite
  rw [show (s.withSp q).cfg = s.cfg from rfl]
  cases s.cfg.regAt a <;> rfl

/-- A bus write does not look at Master Enable, nor touch it (R52). -/
theorem memWrite_imeCleared (a : Addr) (v : Byte) (s : State) :
    memWrite a v s.imeCleared = (memWrite a v s).imeCleared := by
  unfold memWrite
  rw [show s.imeCleared.cfg = s.cfg from rfl]
  cases s.cfg.regAt a with
  | none => rfl
  | some r => cases r <;> rfl

/-- A push is a bus write below the stack pointer, which then moves there (R11). -/
theorem push_eq_memWrite (v : Byte) (s : State) :
    push v s = (memWrite (s.env.sp - 1) v s).withSp (s.env.sp - 1) :=
  memWrite_withSp _ _ v s

/-- A bus write touches nothing of the environment but memory (R52). -/
theorem memWrite_env (a : Addr) (v : Byte) (s : State) :
    (memWrite a v s).env = { s.env with mem := (memWrite a v s).env.mem } := by
  rcases memWrite_cases a v s with ⟨r, -, hw⟩ | ⟨-, hw⟩ <;> rw [hw] <;> rfl

/-- What the two bus writes of a dispatch leave: the high byte of the return address in the first slot, the low byte in the
second (R54, R127). -/
def savedReturn (p : Addr) (s : State) : State :=
  memWrite (s.env.sp - 2) (lo p) (memWrite (s.env.sp - 1) (hi p) s)

/-- Of the environment the two writes reach memory alone (R52). -/
theorem savedReturn_env (p : Addr) (s : State) :
    (savedReturn p s).env = { s.env with mem := (savedReturn p s).env.mem } := by
  unfold savedReturn
  rw [memWrite_env, memWrite_env _ (hi p)]

/-- A dispatch is its two bus writes, Master Enable cleared, `sp` lowered by 2 and `pc` at the vector (R127). -/
theorem dispatchTo_eq_savedReturn (i : Source) (p : Addr) (s : State) : dispatchTo i p s =
    (savedReturn p s).imeCleared.withEnv { (savedReturn p s).env with pc := vector i, sp := s.env.sp - 2 } := by
  have hpushed : push (lo p) (push (hi p) s.imeCleared) = (savedReturn p s).imeCleared.withSp (s.env.sp - 2) := by
    simp only [push_eq_memWrite, memWrite_imeCleared, memWrite_withSp, State.withSp_withSp, State.withSp_sp,
      State.imeCleared_env, sub_one_sub_one, savedReturn]
  rw [dispatchTo]
  exact congrArg (fun u : State => u.withEnv { u.env with pc := vector i }) hpushed

/-- A dispatch reaches the environment in `pc`, `sp` and memory alone (R127). -/
theorem dispatchTo_env (i : Source) (p : Addr) (s : State) : (dispatchTo i p s).env =
    { s.env with pc := vector i, sp := s.env.sp - 2, mem := (dispatchTo i p s).env.mem } := by
  rw [dispatchTo_eq_savedReturn, State.withEnv_env, savedReturn_env]

/-- A register reads the same whatever Master Enable is (R29). -/
theorem readReg_disableNow (c : Cfg) (r : Reg) (b : Block) : readReg c r (disableNow b) = readReg c r b := by
  cases r <;> rfl

/-- A read on the bus sees of a state the configuration, memory and what the registers read as (R51). -/
theorem memRead_congr {s t : State} (hc : t.cfg = s.cfg) (hm : t.env.mem = s.env.mem)
    (hr : ∀ r, readReg s.cfg r t.block = readReg s.cfg r s.block) (a : Addr) : memRead a t = memRead a s := by
  unfold memRead
  rw [hc, hm]
  cases s.cfg.regAt a with
  | some r => exact hr r
  | none => rfl

/-- After a dispatch a read on the bus returns what it does after the two writes (R127, R51). -/
theorem memRead_dispatchTo (a : Addr) (i : Source) (p : Addr) (s : State) :
    memRead a (dispatchTo i p s) = memRead a (savedReturn p s) := by
  rw [dispatchTo_eq_savedReturn]
  exact memRead_congr rfl rfl (fun r => readReg_disableNow _ r _) a

/-- The two stack slots of a dispatch are not the same (R127). -/
theorem sub_one_ne_sub_two (a : Addr) : a - 1 ≠ a - 2 := by
  bv_omega

/-- The stack after the two writes of a dispatch, where they reach no register, and every other byte (R54). -/
theorem memRead_savedReturn {s : State} (hm : s.env.mem.wf)
    (h : ∀ r : Reg, s.cfg.addr r ≠ s.env.sp - 1 ∧ s.cfg.addr r ≠ s.env.sp - 2) (p : Addr) :
    memRead (s.env.sp - 1) (savedReturn p s) = hi p ∧ memRead (s.env.sp - 2) (savedReturn p s) = lo p ∧
    ∀ a, a ≠ s.env.sp - 1 → a ≠ s.env.sp - 2 → memRead a (savedReturn p s) = memRead a s := by
  have hm' := memWrite_wf hm (s.env.sp - 1) (hi p)
  refine ⟨?_, ?_, fun a h1 h2 => ?_⟩ <;> unfold savedReturn
  · rw [memRead_memWrite_of_ne hm' (sub_one_ne_sub_two _), memRead_memWrite_of_memory hm fun r => (h r).1]
  · exact memRead_memWrite_of_memory hm' (by simpa using fun r => (h r).2) _
  · rw [memRead_memWrite_of_ne hm' h2, memRead_memWrite_of_ne hm h1]

/-- `DISPATCH` is unconditional and costs 20 (R127). -/
theorem exec_dispatch (i : Source) (p : Addr) (s : State) :
    exec (.dispatch i p) s = .next ((dispatchTo i p s).withResult (.cost 20)) := rfl

/-- Settles O18: the block and the environment as a dispatch leaves them, memory as its two writes do. -/
theorem dispatchEntersHandler : Obligations.DispatchEntersHandler := by
  unfold Obligations.DispatchEntersHandler
  intro s i p hm hclear
  have hblock : (dispatchTo i p s).block = { s.block with ime := false } := by rw [dispatchTo_of_memory i p hclear]
  obtain ⟨hhigh, hlow, hother⟩ := memRead_savedReturn hm hclear p
  have hread := fun a => memRead_dispatchTo a i p s
  exact ⟨_, exec_dispatch i p s, rfl, hblock, dispatchTo_env i p s, dispatchTo_cfg i p s, dispatchTo_port i p s,
    (hread _).trans hhigh, (hread _).trans hlow, fun a h1 h2 => (hread a).trans (hother a h1 h2)⟩

/-- A bus write at a register's address leaves the block its write rule leaves (R52). -/
theorem memWrite_block_of_register {s : State} (hc : s.cfg.wf) {a : Addr} {r : Reg} (hr : s.cfg.addr r = a) (v : Byte) :
    (memWrite a v s).block = writeReg r v s.block := by
  rw [← hr, memWrite_of_register hc]

/-- A bus write at no register's address leaves the block (R52). -/
theorem memWrite_block_of_memory {s : State} {a : Addr} (h : ∀ r : Reg, s.cfg.addr r ≠ a) (v : Byte) :
    (memWrite a v s).block = s.block := by
  rw [memWrite_of_memory h]

/-- After a dispatch the block is as the two writes leave it, Master Enable cleared (R127). -/
theorem dispatchTo_block_eq (i : Source) (p : Addr) (s : State) :
    (dispatchTo i p s).block = disableNow (savedReturn p s).block := by
  rw [dispatchTo_eq_savedReturn]; rfl

/-- Where the first write reaches a register and the second none, its write rule is all that happens to the block (R52). -/
theorem savedReturn_block_of_first {s : State} (hc : s.cfg.wf) {r : Reg} (hr : s.cfg.addr r = s.env.sp - 1)
    (hmem : ∀ r' : Reg, s.cfg.addr r' ≠ s.env.sp - 2) (p : Addr) :
    (savedReturn p s).block = writeReg r (hi p) s.block := by
  rw [savedReturn, memWrite_block_of_memory (by simpa using hmem), memWrite_block_of_register hc hr]

/-- The same where the second write reaches a register and the first none (R52). -/
theorem savedReturn_block_of_second {s : State} (hc : s.cfg.wf) {r : Reg} (hr : s.cfg.addr r = s.env.sp - 2)
    (hmem : ∀ r' : Reg, s.cfg.addr r' ≠ s.env.sp - 1) (p : Addr) :
    (savedReturn p s).block = writeReg r (lo p) s.block := by
  rw [savedReturn, memWrite_block_of_register (by simpa using hc) (by simpa using hr), memWrite_block_of_memory hmem]

/-- The low three bits of a byte of an address: what CONTROL keeps of one pushed onto it (R95). -/
theorem extractLsb'_of_byte (p : Addr) (low : Nat) : (p.extractLsb' low 8).extractLsb' 0 3 = p.extractLsb' low 3 := by
  apply BitVec.eq_of_getLsbD_eq
  intro k hk
  simp [hk, show k < 8 by omega]

/-- Settles O19: the dispatch is its two bus writes, and one that reaches a register is its write rule. -/
theorem dispatchPushesOntoRegisters : Obligations.DispatchPushesOntoRegisters := by
  unfold Obligations.DispatchPushesOntoRegisters
  intro s i p
  refine ⟨_, exec_dispatch i p s, rfl, dispatchTo_cfg i p s, dispatchTo_port i p s, dispatchTo_env i p s,
    dispatchTo_ime i p s, dispatchTo_eiPending i p s, dispatchTo_halted i p s, dispatchTo_bugLatch i p s, ?_, ?_, ?_⟩
  · rintro u rfl
    rw [dispatchTo_eq_savedReturn]
    exact ⟨rfl, rfl⟩
  · intro r hc hr hmem
    rw [State.withResult_block, dispatchTo_block_eq, savedReturn_block_of_first hc hr hmem, ← extractLsb'_of_byte]
    cases r <;> rfl
  · intro r hc hr hmem
    rw [State.withResult_block, dispatchTo_block_eq, savedReturn_block_of_second hc hr hmem, ← extractLsb'_of_byte]
    cases r <;> rfl

end Sys2Proof.Machine
end

section
/-! SUPPORT. Master Enable through the operations and through a step: only a hook, a delayed enable in flight or a dispatch
changes it (R132), and an immediate enable is seen by the evaluation of its own step (R128). -/

namespace Sys2Proof.Machine

/-- The closed list of the operations outside `STEP` that change Master Enable (R132). -/
theorem ime_changed_by_exec {s t : State} {i : Instr} (h : exec i s = .next t) (hi : i ≠ .step)
    (hne : t.block.ime ≠ s.block.ime) :
    (∃ src p, i = .dispatch src p ∧ t.block.ime = false) ∨ (i = .disImm ∧ t.block.ime = false) ∨
    (i = .enImm ∧ t.block.ime = true) ∨ (i = .resolve ∧ s.block.eiPending = true ∧ t.block.ime = true) ∨
    (i = .reset ∧ t.block.ime = false) := by
  cases i with
  | dispatch src p => cases h; exact .inl ⟨src, p, rfl, dispatchTo_ime src p s⟩
  | disImm => cases h; exact .inr (.inl ⟨rfl, rfl⟩)
  | enImm => cases h; exact .inr (.inr (.inl ⟨rfl, rfl⟩))
  | resolve =>
    cases h
    rw [finish_block, resolveEnable_ime] at hne
    cases hei : s.block.eiPending with
    | false => simp [hei] at hne
    | true => exact .inr (.inr (.inr (.inl ⟨rfl, rfl, by simp [hei]⟩)))
  | reset => cases h; exact .inr (.inr (.inr (.inr ⟨rfl, rfl⟩)))
  | step => exact absurd rfl hi
  | tick n => cases h; exact absurd (tick_ime n s.block) hne
  | sleep => cases h; exact absurd (enterSleep_ime s.cfg s.block) hne
  | _ => cases h; exact absurd rfl hne

/-- An action that is neither hook of Master Enable leaves it alone (R144). -/
theorem applyAction_ime {s : State} {x : ExecAction} (hen : x ≠ .enImm) (hdis : x ≠ .disImm) :
    (applyAction s x).block.ime = s.block.ime := by
  cases x with
  | enImm => exact absurd rfl hen
  | disImm => exact absurd rfl hdis
  | _ => simp [applyAction]

/-- An instruction that issues neither hook leaves Master Enable alone (R144). -/
theorem execute_ime {refetch : Bool} {s : State}
    (h : ∀ x ∈ (nextAnswer refetch s).actions, x ≠ .enImm ∧ x ≠ .disImm) :
    (execute refetch s).block.ime = s.block.ime :=
  foldl_applyAction_keeps_of_mem (P := fun t => t.block.ime = s.block.ime) (nextAnswer refetch s).actions
    (fun _ x hx ht => (applyAction_ime (h x hx).1 (h x hx).2).trans ht) (callExecutor refetch s) rfl

/-- With no delayed enable in flight the conclusion of a step changes Master Enable only by a dispatch (R132, R143). -/
theorem ime_changed_by_concludeStep {base : Nat} {u : State}
    (h : (concludeStep false base u).block.ime ≠ u.block.ime) :
    (concludeStep false base u).block.ime = false ∧ ∃ i : Source, (concludeStep false base u).env.pc = vector i := by
  rcases concludeStep_cases false base u with ⟨-, -, -, hime, -, -⟩ | ⟨i, -, -, -, -, hime, hpc, -⟩
  · exact absurd (by simpa using hime) h
  · exact ⟨hime, i, hpc⟩

/-- An idle step leaves Master Enable alone (R148). -/
theorem idleStep_ime (s : State) : (idleStep s).block.ime = s.block.ime := by simp [idleStep]

/-- Settles O21: outside `STEP` by the operation, in a step by its kind. -/
theorem masterEnableClosedList : Obligations.MasterEnableClosedList := by
  unfold Obligations.MasterEnableClosedList
  refine ⟨fun s t i => ime_changed_by_exec, fun s t h hei hact hne => ?_⟩
  cases h
  rcases schedulerStep_cases s with ⟨-, -, he⟩ | ⟨-, -, he⟩ | ⟨hh, he⟩
  · exact absurd (by rw [he, idleStep_ime]) hne
  · rw [he, wakeStep_eq, hei] at hne ⊢
    exact ime_changed_by_concludeStep hne
  · have hime := execute_ime (hact hh)
    rw [he, runningStep_eq, hei] at hne ⊢
    exact ime_changed_by_concludeStep (by rw [hime]; exact hne)

/-- A step of a running machine is the running step (R143). -/
theorem exec_step_of_running {s : State} (h : s.block.halted = false) : exec .step s = .next (runningStep s) := by
  show Host.Outcome.next (schedulerStep s) = _
  simp [schedulerStep, h]

/-- The timer's advance sees nothing of the flags of a block (R110). -/
theorem requestAfter_congr {b b' : Block} (hreq : b.request = b'.request) (h1 : b.sub = b'.sub)
    (h2 : b.counterReg = b'.counterReg) (h3 : b.reloadReg = b'.reloadReg) (h4 : b.control = b'.control) (n : Nat) :
    requestAfter n b = requestAfter n b' := by
  rw [requestAfter, hreq, tickOverflow_congr h1 h2 h3 h4, requestAfter]

/-- The conclusion of a step with Master Enable 1 dispatches the least source pending and enabled after the timer's advance;
with none it leaves Master Enable 1 and the environment as they are (R143). -/
theorem concludeStep_of_ime {u : State} (hu : u.block.ime = true) (armed : Bool) (base : Nat) :
    (requestAfter base u.block &&& u.block.enable &&& 0x1F = 0 ∧ (concludeStep armed base u).result = .cost base ∧
      (concludeStep armed base u).block.ime = true ∧ (concludeStep armed base u).env = u.env) ∨
    (requestAfter base u.block &&& u.block.enable &&& 0x1F ≠ 0 ∧
      (concludeStep armed base u).result = .cost (base + 20) ∧ (concludeStep armed base u).block.ime = false ∧
      (concludeStep armed base u).env.sp = u.env.sp - 2 ∧
      ∃ k, (concludeStep armed base u).env.pc = vector k ∧ LeastIn (requestAfter base u.block &&& u.block.enable) k) := by
  rcases concludeStep_cases armed base u with ⟨hnone, hres, henv, hime, -, -⟩ | ⟨k, -, hpend, hk, heq, hime, hpc, hsp⟩
  · simp only [hu, Bool.true_or] at hnone hime
    exact .inl ⟨hnone.resolve_left nofun, hres, hime, henv⟩
  · have hleast := leastIn_of_pendingSource hk
    rw [pend5_conclude, leastIn_sources] at hleast
    exact .inr ⟨hpend, by rw [heq]; rfl, hime, hsp, k, hpc, hleast⟩

/-- A running step with an answer given runs that answer and concludes with its cost (R143, R144). -/
theorem runningStep_of_answer {s : State} {a : ExecAnswer} {rest : List ExecAnswer} (ha : s.env.answers = a :: rest) :
    runningStep s = concludeStep s.block.eiPending a.cost
      (execute s.block.bugLatch { s with block := { s.block with bugLatch := false } }) := by
  rw [runningStep_eq, nextAnswer_of_cons (s := { s with block := { s.block with bugLatch := false } }) ha]

/-- An instruction that issues `EN_IMM` alone does just that, and sets `pc` and `sp` (R128, R144). -/
theorem execute_of_enImm {s : State} {a : ExecAnswer} {rest : List ExecAnswer} (ha : s.env.answers = a :: rest)
    (hx : a.actions = [.enImm]) (refetch : Bool) :
    (execute refetch s).block = enableNow s.block ∧ (execute refetch s).env.pc = a.pc ∧
    (execute refetch s).env.sp = a.sp := by
  rw [execute, nextAnswer_of_cons ha, runAnswer, hx]
  exact ⟨rfl, rfl, rfl⟩

/-- The step of an instruction that issues `EN_IMM` alone: the delayed enable is cleared, and the evaluation sees Master
Enable 1 (R128, R144, R167). -/
theorem step_of_enImm {s : State} {a : ExecAnswer} {rest : List ExecAnswer} (hh : s.block.halted = false)
    (ha : s.env.answers = a :: rest) (hx : a.actions = [.enImm]) :
    ∃ t, exec .step s = .next t ∧ t.block.eiPending = false ∧
      ((requestAfter a.cost s.block &&& s.block.enable &&& 0x1F = 0 ∧ t.result = .cost a.cost ∧ t.block.ime = true ∧
          t.env.pc = a.pc ∧ t.env.sp = a.sp) ∨
       (requestAfter a.cost s.block &&& s.block.enable &&& 0x1F ≠ 0 ∧ t.result = .cost (a.cost + 20) ∧
          t.block.ime = false ∧ t.env.sp = a.sp - 2 ∧
          ∃ k, t.env.pc = vector k ∧ LeastIn (requestAfter a.cost s.block &&& s.block.enable) k)) := by
  refine ⟨_, exec_step_of_running hh, ?_⟩
  rw [runningStep_of_answer ha]
  obtain ⟨hblock, hpc, hsp⟩ := execute_of_enImm (s := { s with block := { s.block with bugLatch := false } }) ha hx
    s.block.bugLatch
  generalize execute s.block.bugLatch { s with block := { s.block with bugLatch := false } } = u at hblock hpc hsp ⊢
  have hreq : requestAfter a.cost u.block = requestAfter a.cost s.block := by
    rw [hblock]; exact requestAfter_congr rfl rfl rfl rfl rfl _
  have hen : u.block.enable = s.block.enable := by rw [hblock]; rfl
  obtain ⟨-, -, hei, -⟩ := concludeStep_frame s.block.eiPending a.cost u
  refine ⟨by simp [hei, hblock], ?_⟩
  rw [← hreq, ← hen, ← hpc, ← hsp]
  exact (concludeStep_of_ime (by rw [hblock]; rfl) s.block.eiPending a.cost).imp_left
    fun ⟨h0, hres, hime, henv⟩ => ⟨h0, hres, hime, by rw [henv], by rw [henv]⟩

/-- Settles O31, by what is pending after the step's tick. -/
theorem immediateEnableSameStep : Obligations.ImmediateEnableSameStep := by
  unfold Obligations.ImmediateEnableSameStep
  intro s a rest hh ha hx
  obtain ⟨t, ht, hei, hcase⟩ := step_of_enImm hh ha hx
  rw [requestAfter_eq] at hcase
  refine ⟨t, ht, hei, ?_⟩
  rcases hcase with ⟨hzero, hres, hime, hpc, hsp⟩ | ⟨hne, hres, hime, hsp, k, hpc, -⟩
  · exact ⟨fun _ => ⟨hime, hres, hpc, hsp⟩, fun h => absurd hzero h⟩
  · exact ⟨fun h => absurd h hne, fun _ => ⟨hime, hres, hsp, k, hpc⟩⟩

/-- The step of an instruction that issues `EN_IMM` alone dispatches where a source was pending and enabled before it: that
source, or one of lower index (R128, R188). -/
theorem step_of_enImm_dispatches {s : State} {a : ExecAnswer} {rest : List ExecAnswer} {i : Source}
    (hh : s.block.halted = false) (ha : s.env.answers = a :: rest) (hx : a.actions = [.enImm])
    (hreq : s.block.request.getLsbD i.index = true) (hen : s.block.enable.getLsbD i.index = true) :
    ∃ t k, exec .step s = .next t ∧ t.result = .cost (a.cost + 20) ∧ t.block.ime = false ∧ t.env.sp = a.sp - 2 ∧
      t.env.pc = vector k ∧ k.index ≤ i.index ∧ LeastIn (requestAfter a.cost s.block &&& s.block.enable) k := by
  have hi : (requestAfter a.cost s.block &&& s.block.enable).getLsbD i.index = true := by
    rw [requestAfter_eq, BitVec.getLsbD_and, BitVec.getLsbD_or, hreq, hen]; rfl
  obtain ⟨t, ht, -, ⟨hzero, -⟩ | ⟨-, hres, hime, hsp, k, hpc, hk⟩⟩ := step_of_enImm hh ha hx
  · rw [← getLsbD_sources, hzero] at hi
    simp at hi
  · exact ⟨t, k, ht, hres, hime, hsp, hpc, hk.index_le hi, hk⟩

/-- Settles O22: the dispatch leaves the masks and the timer as they were, so the handled source is still pending when an
`EN_IMM` makes Master Enable 1. -/
theorem unacknowledgedRequestDispatchedAgain : Obligations.UnacknowledgedRequestDispatchedAgain := by
  unfold Obligations.UnacknowledgedRequestDispatchedAgain
  intro s i p hclear hreq hen
  have hblock : (dispatchTo i p s).block = { s.block with ime := false } := by rw [dispatchTo_of_memory i p hclear]
  have hi : (pend5 s.block).getLsbD i.index = true := by rw [pend5_getLsbD, hreq, hen]; rfl
  obtain ⟨j, hj, hleast⟩ := pendingSource_enableNow (b := (dispatchTo i p s).block) (by rw [hblock]; exact hi)
  replace hleast : LeastIn (pend5 s.block) j := by rw [hblock] at hleast; exact hleast
  refine ⟨_, _, _, j, exec_dispatch i p s, rfl, exec_pendvec _, by rw [State.withResult_block, hblock],
    congrArg Result.source hj, hleast.index_le hi, fun hlower => ?_, fun a rest hh ha hx => ?_⟩
  · exact hleast.unique ⟨hi, fun k hk => (pend5_getLsbD _ k).trans (hlower k hk)⟩
  · obtain ⟨w, k, hw, hres, hime, hsp, hpc, hle, hbit, hlower⟩ := step_of_enImm_dispatches (i := i)
      (s := (dispatchTo i p s).withResult (.cost 20)) (by simpa using hh) (by simpa using ha) hx
      (by simpa [hblock] using hreq) (by simpa [hblock] using hen)
    rw [State.withResult_block, hblock, requestAfter_eq] at hbit hlower
    exact ⟨w, k, hw, hres, hime, hsp, hpc, hle, hbit, hlower⟩

end Sys2Proof.Machine
end

section
/-! SUPPORT. The three kinds of step (R143): the outcome of each, what a call of the executor leaves, and the conclusion of
a step with and without a dispatch. -/

namespace Sys2Proof.Machine

/-- The state awake, from which a wake step concludes (R149). -/
def State.awake (s : State) : State := { s with block := { s.block with halted := false } }

/-- The state with the latch cleared, in which a running step calls the executor (R141, R144). -/
def State.latchCleared (s : State) : State := { s with block := { s.block with bugLatch := false } }

@[simp] theorem State.awake_cfg (s : State) : s.awake.cfg = s.cfg := rfl
@[simp] theorem State.awake_env (s : State) : s.awake.env = s.env := rfl
@[simp] theorem State.awake_block (s : State) : s.awake.block = { s.block with halted := false } := rfl
@[simp] theorem State.latchCleared_block (s : State) : s.latchCleared.block = { s.block with bugLatch := false } := rfl

/-- `STEP` is the scheduler's step (R143). -/
theorem exec_step (s : State) : exec .step s = .next (schedulerStep s) := rfl

/-- Asleep with nothing pending, `STEP` is the idle step (R148). -/
theorem exec_step_of_idle {s : State} (h : s.block.halted = true) (hp : pend5 s.block = 0) :
    exec .step s = .next (idleStep s) := by
  rw [exec_step, schedulerStep, if_pos h, if_pos hp]

/-- Asleep with something pending, `STEP` is the conclusion of a step from the state awake (R149). -/
theorem exec_step_of_wake {s : State} (h : s.block.halted = true) (hp : pend5 s.block ≠ 0) :
    exec .step s = .next (concludeStep s.block.eiPending 4 s.awake) := by
  rw [exec_step, schedulerStep, if_pos h, if_neg hp, wakeStep_eq]
  rfl

/-- Awake, `STEP` is the executor's run and the conclusion of the step (R144). -/
theorem exec_step_executes {s : State} (h : s.block.halted = false) : exec .step s = .next
    (concludeStep s.block.eiPending (nextAnswer s.block.bugLatch s.latchCleared).cost
      (execute s.block.bugLatch s.latchCleared)) := by
  rw [exec_step_of_running h, runningStep_eq]
  rfl

/-- The same where the executor's answer is given (R144, log entry 4). -/
theorem exec_step_of_answer {s : State} {a : ExecAnswer} {rest : List ExecAnswer} (h : s.block.halted = false)
    (ha : s.env.answers = a :: rest) : exec .step s = .next
    (concludeStep s.block.eiPending a.cost (execute s.block.bugLatch s.latchCleared)) := by
  rw [exec_step_executes h, nextAnswer_of_cons (s := s.latchCleared) ha]

/-- The fold of an overflow reaches `request` alone (R143). -/
theorem foldOverflow_eq (ov : Bool) (b : Block) :
    foldOverflow ov b = { b with request := if ov then b.request ||| 0x04 else b.request } := by
  cases ov <;> rfl

/-- A tick does not look at `halted`, nor touch it (R110). -/
theorem tick_setHalted (n : Nat) (b : Block) (x : Bool) :
    tick n { b with halted := x } = { tick n b with halted := x } := by
  cases h : timerEnabled b with
  | true => rw [tick_of_enabled h, tick_of_enabled (b := { b with halted := x }) h]; rfl
  | false => rw [tick_of_disabled h, tick_of_disabled (b := { b with halted := x }) h]

/-- A bus write does not look at the result, nor touch it (R52). -/
theorem memWrite_withResult (a : Addr) (v : Byte) (r : Result) (s : State) :
    memWrite a v (s.withResult r) = (memWrite a v s).withResult r := by
  unfold memWrite
  rw [State.withResult_cfg]
  cases s.cfg.regAt a <;> rfl

/-- A dispatch does not look at the result, nor touch it (R127). -/
theorem dispatchTo_withResult (i : Source) (p : Addr) (r : Result) (s : State) :
    dispatchTo i p (s.withResult r) = (dispatchTo i p s).withResult r := by
  have hsaved : savedReturn p (s.withResult r) = (savedReturn p s).withResult r := by
    simp only [savedReturn, memWrite_withResult, State.withResult_env]
  rw [dispatchTo_eq_savedReturn, dispatchTo_eq_savedReturn, hsaved]
  rfl

/-- Where the evaluation finds none, a step ends at the base cost (R143, step 6). -/
theorem evaluate_of_none {s : State} (h : pendingSource s.block = none) (base : Nat) :
    evaluate base s = s.withResult (.cost base) := by
  simp only [evaluate, h]

/-- Where it finds a source, the step ends with its dispatch and costs 20 more (R143, step 6). -/
theorem evaluate_of_some {s : State} {i : Source} (h : pendingSource s.block = some i) (base : Nat) :
    evaluate base s = (dispatchTo i s.env.pc s).withResult (.cost (base + 20)) := by
  simp only [evaluate, h]
  rfl

/-- The evaluation at the end of a step does not look at the result, which it replaces (R143, step 6). -/
theorem evaluate_withResult (base : Nat) (r : Result) (s : State) :
    evaluate base (s.withResult r) = evaluate base s := by
  cases h : pendingSource s.block with
  | none => rw [evaluate_of_none h, evaluate_of_none (s := s.withResult r) h]; rfl
  | some i =>
    rw [evaluate_of_some h, evaluate_of_some (s := s.withResult r) h, dispatchTo_withResult]
    rfl

/-- The resolution in an armed step is the operation `RESOLVE`, in another nothing, up to the result (R143, step 5). -/
theorem resolveArmed_is_resolve (armed : Bool) (r : Result) (s : State) : ∃ r',
    (armed = true → exec .resolve (s.withResult r) = .next ((resolveArmed armed s).withResult r')) ∧
    (armed = false → (resolveArmed armed s).withResult r' = s.withResult r) := by
  cases armed with
  | true => exact ⟨.nothing, fun _ => rfl, nofun⟩
  | false => exact ⟨r, nofun, fun _ => rfl⟩

/-- With Master Enable 0 and no delayed enable in flight, a step concludes with the timer's advance alone (R125, R143). -/
theorem concludeStep_of_ime_zero {u : State} (h : u.block.ime = false) (base : Nat) :
    concludeStep false base u = (advanceTimer base u).withResult (.cost base) := by
  have hnone : pendingSource (resolveArmed false (advanceTimer base u)).block = none :=
    pendingSource_of_ime_false (by simpa using h)
  rw [concludeStep, evaluate_of_none hnone]
  rfl

/-- With Master Enable 1, or about to be, and a source pending and enabled after the timer's advance, a step concludes with
the dispatch of an enabled source (R125, R143). -/
theorem concludeStep_dispatches {armed : Bool} {base : Nat} {u : State}
    (hime : (u.block.ime || (armed && u.block.eiPending)) = true)
    (hpend : requestAfter base u.block &&& u.block.enable &&& 0x1F ≠ 0) :
    ∃ i, u.block.enable.getLsbD i.index = true ∧ concludeStep armed base u =
      (dispatchTo i u.env.pc (resolveArmed armed (advanceTimer base u))).withResult (.cost (base + 20)) := by
  rcases concludeStep_cases armed base u with ⟨hnone, -⟩ | ⟨i, -, -, hi, heq, -⟩
  · rcases hnone with hoff | hzero
    · rw [hime] at hoff; exact absurd hoff nofun
    · exact absurd hzero hpend
  · have hbit := pend5_of_pendingSource hi
    rw [pend5_conclude, getLsbD_sources, BitVec.getLsbD_and, Bool.and_eq_true] at hbit
    exact ⟨i, hbit.2, heq⟩

/-- What is pending and enabled stays so through the timer's advance (R26). -/
theorem pending_requestAfter {b : Block} (h : pend5 b ≠ 0) (n : Nat) :
    requestAfter n b &&& b.enable &&& 0x1F ≠ 0 := by
  refine fun hzero => h ((pend5_eq_zero_iff b).mpr fun i => ?_)
  have hbit : (requestAfter n b &&& b.enable &&& 0x1F).getLsbD i.index = false := by rw [hzero]; simp
  rw [getLsbD_sources, requestAfter_eq, BitVec.getLsbD_and, BitVec.getLsbD_or, Bool.and_or_distrib_right,
    Bool.or_eq_false_iff] at hbit
  rw [pend5_getLsbD]
  exact hbit.1

/-- A step concludes at the base cost, or 20 above it after a dispatch (R146). -/
theorem concludeStep_cost (armed : Bool) (base : Nat) (u : State) :
    ∃ n, (concludeStep armed base u).result = .cost n ∧ (n = base ∨ (n = base + 20 ∧
      (concludeStep armed base u).block.ime = false ∧ ∃ i : Source, (concludeStep armed base u).env.pc = vector i)) := by
  rcases concludeStep_cases armed base u with ⟨-, hres, -⟩ | ⟨i, -, -, -, heq, hime, hpc, -⟩
  · exact ⟨_, hres, .inl rfl⟩
  · exact ⟨_, by rw [heq]; rfl, .inr ⟨rfl, hime, i, hpc⟩⟩

/-- Asleep with something pending, Master Enable 0 and no delayed enable in flight, `STEP` wakes and advances
the timer (R149). -/
theorem exec_step_resumes {s : State} (h : s.block.halted = true) (hp : pend5 s.block ≠ 0) (hime : s.block.ime = false)
    (hei : s.block.eiPending = false) :
    exec .step s = .next ((advanceTimer 4 s.awake).withResult (.cost 4)) := by
  rw [exec_step_of_wake h hp, hei, concludeStep_of_ime_zero (u := s.awake) hime]

/-- The two stack slots after a dispatch whose pushes land on no register (R54). -/
theorem memRead_slots_dispatchTo {s : State} (hm : s.env.mem.wf)
    (h : ∀ r : Reg, s.cfg.addr r ≠ s.env.sp - 1 ∧ s.cfg.addr r ≠ s.env.sp - 2) (i : Source) (p : Addr) :
    memRead (s.env.sp - 1) (dispatchTo i p s) = hi p ∧ memRead (s.env.sp - 2) (dispatchTo i p s) = lo p := by
  obtain ⟨hhigh, hlow, -⟩ := memRead_savedReturn hm h p
  exact ⟨(memRead_dispatchTo _ i p s).trans hhigh, (memRead_dispatchTo _ i p s).trans hlow⟩

/-- Such a dispatch changes nothing of the block but Master Enable (R127). -/
theorem dispatchTo_block_of_memory {s : State}
    (h : ∀ r : Reg, s.cfg.addr r ≠ s.env.sp - 1 ∧ s.cfg.addr r ≠ s.env.sp - 2) (i : Source) (p : Addr) :
    (dispatchTo i p s).block = disableNow s.block := by
  rw [dispatchTo_of_memory i p h]
  rfl

/-- The resolution of a delayed enable leaves the free-running counter (R131). -/
theorem resolveArmed_counter (armed : Bool) (s : State) :
    (resolveArmed armed s).block.counter = s.block.counter := by
  cases armed <;> simp

/-- What a call of the executor does to the model's record of calls (R11, R141). -/
theorem execute_record (refetch : Bool) (s : State) :
    (execute refetch s).env.calls = s.env.calls + 1 ∧ (execute refetch s).env.refetch = refetch ∧
    (execute refetch s).env.answers = s.env.answers.tail := by
  obtain ⟨-, -, -, hcalls, hanswers, hrefetch, -, -⟩ := runAnswer_frame (nextAnswer refetch s) (callExecutor refetch s)
  exact ⟨hcalls, hrefetch, hanswers⟩

/-- An action that is not the hook of the sleep instruction leaves `halted` and the latch alone (R144, R151). -/
theorem applyAction_sleep_flags {s : State} {x : ExecAction} (h : x ≠ .sleep) :
    (applyAction s x).block.halted = s.block.halted ∧ (applyAction s x).block.bugLatch = s.block.bugLatch := by
  cases x with
  | sleep => exact absurd rfl h
  | _ => simp [applyAction]

/-- So does an instruction that does not issue `SLEEP` (R144, R151). -/
theorem execute_sleep_flags {refetch : Bool} {s : State} (h : ExecAction.sleep ∉ (nextAnswer refetch s).actions) :
    (execute refetch s).block.halted = s.block.halted ∧ (execute refetch s).block.bugLatch = s.block.bugLatch :=
  foldl_applyAction_keeps_of_mem
    (P := fun t => t.block.halted = s.block.halted ∧ t.block.bugLatch = s.block.bugLatch) (nextAnswer refetch s).actions
    (fun t x hx ⟨hh, hb⟩ => by
      obtain ⟨hh', hb'⟩ := applyAction_sleep_flags (s := t) (x := x) (ne_of_mem_of_not_mem hx h)
      exact ⟨hh'.trans hh, hb'.trans hb⟩)
    (callExecutor refetch s) ⟨rfl, rfl⟩

/-- An action that is not the hook of the return-and-enable instruction leaves a delayed enable in flight (R144, R31). -/
theorem applyAction_eiPending {s : State} {x : ExecAction} (hs : s.block.eiPending = true) (h : x ≠ .enImm) :
    (applyAction s x).block.eiPending = true := by
  cases x with
  | enImm => exact absurd rfl h
  | _ => simp [applyAction, hs]

/-- So does an instruction that does not issue `EN_IMM` (R144, R31). -/
theorem execute_eiPending {refetch : Bool} {s : State} (hs : s.block.eiPending = true)
    (h : ExecAction.enImm ∉ (nextAnswer refetch s).actions) : (execute refetch s).block.eiPending = true :=
  foldl_applyAction_keeps_of_mem (P := fun t => t.block.eiPending = true) (nextAnswer refetch s).actions
    (fun _ _ hx ht => applyAction_eiPending ht (ne_of_mem_of_not_mem hx h)) (callExecutor refetch s) hs

/-- An instruction of one action does that action and sets `pc` and `sp` (R144). -/
theorem execute_of_one_action {s : State} {a : ExecAnswer} {rest : List ExecAnswer} {x : ExecAction}
    (ha : s.env.answers = a :: rest) (hx : a.actions = [x]) (refetch : Bool) :
    (execute refetch s).block = (applyAction (callExecutor refetch s) x).block ∧ (execute refetch s).env.pc = a.pc ∧
    (execute refetch s).env.sp = a.sp := by
  rw [execute, nextAnswer_of_cons ha, runAnswer, hx]
  exact ⟨rfl, rfl, rfl⟩

/-- An instruction that leaves a delayed enable in flight, or is a return-and-enable alone, ends with Master Enable 1 or
about to be (R145). -/
theorem execute_enables {refetch : Bool} {s : State} (hs : s.block.eiPending = true)
    (h : ExecAction.enImm ∉ (nextAnswer refetch s).actions ∨ (nextAnswer refetch s).actions = [.enImm]) :
    ((execute refetch s).block.ime || (execute refetch s).block.eiPending) = true := by
  rcases h with h | h
  · rw [execute_eiPending hs h, Bool.or_true]
  · rw [execute, runAnswer, h]; rfl

end Sys2Proof.Machine
end

section
/-! SUPPORT. The StepScheduler: `SLEEP`, `RESET` and `STEP` against the algorithm of R143, with what the executor issues
inside a step (R144), the cost (R146), the idle step (R148) and the wake step (R149). -/

namespace Sys2Proof.Machine

/-- `SLEEP` as an operation on the block (R140). -/
theorem exec_sleep (s : State) : exec .sleep s = .next (finish (enterSleep s.cfg s.block) .nothing s) := rfl

/-- Settles O23, by the condition that arms the latch. -/
theorem sleepSetsHaltedAndArmsLatch : Obligations.SleepSetsHaltedAndArmsLatch := by
  unfold Obligations.SleepSetsHaltedAndArmsLatch
  exact fun s => ⟨fun h => (exec_sleep s).trans (by rw [enterSleep, pend5, if_pos h]; rfl),
    fun h => (exec_sleep s).trans (by rw [enterSleep, pend5, if_neg h]; rfl)⟩

/-- `RESET` as an operation on the block (R150). -/
theorem exec_reset (s : State) : exec .reset s = .next (finish (resetBlock s.cfg) .nothing s) := rfl

/-- Settles O36: Master Enable is 0 in the reset block, so an evaluation finds no source there. -/
theorem resetRestoresBlock : Obligations.ResetRestoresBlock := by
  unfold Obligations.ResetRestoresBlock
  refine fun s => ⟨rfl, exec_reset s, fun hcfg => ⟨_, exec_reset s, ?_⟩, _, _, exec_reset s, exec_pendvec _, ?_⟩
  · rw [finish_block, hcfg]; rfl
  · rw [State.withResult_result, finish_block, pendingSource_of_ime_false rfl]

/-- Settles O24: the idle step; the two others conclude from `u`, operation by operation, and what separates the states of the
composition from those of the step is the result, which the evaluation does not look at. -/
theorem stepComposesPortOperations : Obligations.StepComposesPortOperations := by
  unfold Obligations.StepComposesPortOperations
  refine fun s => ⟨rfl, fun hh hp => ⟨_, _, exec_tick _ s, rfl, ?_⟩, ?_⟩
  · rw [exec_step_of_idle hh hp, idleStep, advanceTimer, foldOverflow_eq]; rfl
  rintro u _ base rfl hkind
  have hstep : exec .step s = .next (concludeStep s.block.eiPending base u) := by
    rcases hkind with ⟨hh, hp, rfl, rfl⟩ | ⟨hh, rfl, rfl⟩
    · exact exec_step_of_wake hh hp
    · exact exec_step_executes hh
  obtain ⟨r, harmed, hunarmed⟩ := resolveArmed_is_resolve s.block.eiPending (.overflow (tickOverflow base u.block))
    (advanceTimer base u)
  refine ⟨_, _, _, _, _, _, exec_tick base u, rfl, ?_, harmed, hunarmed, exec_pendvec _, rfl, fun hv => ?_,
    fun i hi => ⟨_, exec_dispatch i _ _, ?_⟩⟩
  · rw [advanceTimer, foldOverflow_eq]; rfl
  · rw [hstep, concludeStep, ← evaluate_withResult base r, evaluate_of_none hv]; rfl
  · rw [hstep, concludeStep, ← evaluate_withResult base r, evaluate_of_some hi]; rfl

/-- The block an idle step leaves (R148). -/
theorem idleStep_block (s : State) : (idleStep s).block = { tick s.cfg.idleCost s.block with
    request := if tickOverflow s.cfg.idleCost s.block then s.block.request ||| 0x04 else s.block.request } := by
  rw [idleStep, State.withResult_block, advanceTimer_block, foldOverflow_eq, tick_request]

/-- An idle step leaves the latch alone (R148). -/
theorem idleStep_bugLatch (s : State) : (idleStep s).block.bugLatch = s.block.bugLatch := by
  rw [idleStep_block]
  exact tick_bugLatch _ _

/-- Settles O25: an idle step leaves `halted`, so a request then pending makes the next step a wake step. -/
theorem idleStepOnlyAdvancesTimer : Obligations.IdleStepOnlyAdvancesTimer := by
  unfold Obligations.IdleStepOnlyAdvancesTimer
  intro s hh hp
  have hblock := idleStep_block s
  have hhalted : (idleStep s).block.halted = true := by rw [hblock]; exact (tick_halted _ _).trans hh
  have hei : (idleStep s).block.eiPending = s.block.eiPending := by rw [hblock]; exact tick_eiPending _ _
  refine ⟨_, exec_step_of_idle hh hp, rfl, rfl, rfl, rfl, hblock, hhalted, idleStep_ime s, hei, idleStep_bugLatch s,
    fun hpend => ⟨_, exec_step_of_wake hhalted hpend, ?_⟩⟩
  obtain ⟨hawake, -, -, hcalls, -⟩ := concludeStep_frame (idleStep s).block.eiPending 4 (idleStep s).awake
  obtain ⟨n, hres, rfl | ⟨rfl, -⟩⟩ := concludeStep_cost (idleStep s).block.eiPending 4 (idleStep s).awake
  · exact ⟨hawake, hcalls, .inl hres⟩
  · exact ⟨hawake, hcalls, .inr hres⟩

/-- Settles O26, by whether Master Enable is 1 or about to be. -/
theorem wakeStepResumesOrDispatches : Obligations.WakeStepResumesOrDispatches := by
  unfold Obligations.WakeStepResumesOrDispatches
  intro s hh hp
  obtain ⟨hawake, -, hei, hcalls, -, -, hcfg, hport⟩ := concludeStep_frame s.block.eiPending 4 s.awake
  refine ⟨_, exec_step_of_wake hh hp, hawake, hcalls, hcfg, hport, fun hime hoff => ?_, fun hon => ?_⟩
  · rw [hoff, concludeStep_of_ime_zero (u := s.awake) hime]
    refine ⟨rfl, rfl, ?_⟩
    rw [State.withResult_block, advanceTimer_block, State.awake, foldOverflow_eq, tick_setHalted, tick_request]
    rfl
  · have hime : (s.block.ime || (s.block.eiPending && s.block.eiPending)) = true := by simpa using hon
    obtain ⟨i, hen, heq⟩ := concludeStep_dispatches (u := s.awake) hime (pending_requestAfter (b := s.awake.block) hp 4)
    rw [heq] at hei ⊢
    refine ⟨rfl, dispatchTo_ime i _ _, hei.trans (Bool.not_and_self _), ?_, i, rfl, hen, fun hm hclear => ?_⟩
    · rw [State.withResult_env, dispatchTo_sp, sub_one_sub_one]; simp
    obtain ⟨hhigh, hlow⟩ := memRead_slots_dispatchTo (s := resolveArmed s.block.eiPending (advanceTimer 4 s.awake))
      (by simpa using hm) (by simpa using hclear) i s.env.pc
    rw [resolveArmed_env] at hhigh hlow
    refine ⟨hhigh, hlow, ?_⟩
    rw [State.withResult_block, dispatchTo_block_of_memory (by simpa using hclear), disableNow_counter, resolveArmed_counter]
    simp

/-- Settles O27, by the kind of step. -/
theorem stepCost : Obligations.StepCost := by
  unfold Obligations.StepCost
  intro s
  cases hh : s.block.halted with
  | true =>
    by_cases hp : pend5 s.block = 0
    · exact ⟨_, _, exec_step_of_idle hh hp, rfl, fun _ _ => rfl, fun _ h => absurd hp h, nofun⟩
    · obtain ⟨n, hres, hn⟩ := concludeStep_cost s.block.eiPending 4 s.awake
      exact ⟨_, n, exec_step_of_wake hh hp, hres, fun _ h => absurd h hp, fun _ _ => hn.imp_right And.left, nofun⟩
  | false =>
    obtain ⟨n, hres, hn⟩ := concludeStep_cost s.block.eiPending (nextAnswer s.block.bugLatch s.latchCleared).cost
      (execute s.block.bugLatch s.latchCleared)
    exact ⟨_, n, exec_step_executes hh, hres, nofun, nofun, fun c _ hc => hc ▸ hn⟩

/-- Settles O28: the call, the order of the actions and the hooks by definition; a bus access by which side of the bus decode
its address is on. -/
theorem executorActionsAreOperations : Obligations.ExecutorActionsAreOperations := by
  unfold Obligations.ExecutorActionsAreOperations
  refine fun s => ⟨fun _ => rfl, fun refetch a rest ha => nextAnswer_of_cons ha refetch,
    fun refetch hnil => nextAnswer_of_nil hnil refetch, fun pc sp cost => runAnswer_nil pc sp cost s,
    fun x xs pc sp cost => runAnswer_cons x xs pc sp cost s,
    fun x => ⟨applyAction_cfg s x, applyAction_port s x, applyAction_result s x⟩,
    ⟨_, rfl, rfl, rfl⟩, ⟨_, rfl, rfl, rfl⟩, ⟨_, rfl, rfl, rfl⟩, ⟨_, exec_sleep s, rfl, rfl⟩,
    fun r v hc => ⟨⟨_, exec_wr r v s, ?_⟩, _, _, exec_rd r s, rfl, rfl, ?_⟩,
    fun a v hm hmem => ⟨?_, rfl, ?_, fun k => ?_, ?_⟩⟩
  · rw [applyAction, memWrite_of_register hc]; exact ⟨rfl, rfl⟩
  · rw [applyAction, memRead_of_regAt_some (regAt_addr hc r)]; rfl
  · exact memWrite_block_of_memory hmem v
  · exact memWrite_env a v s
  · rw [applyAction, memWrite_of_memory hmem, Memory.get_set hm]
  · rw [applyAction, memRead_of_regAt_none (regAt_eq_none_iff.mpr hmem)]; rfl

/-- Settles O29, by the kind of step. -/
theorem executorCalledOncePerRunningStep : Obligations.ExecutorCalledOncePerRunningStep := by
  unfold Obligations.ExecutorCalledOncePerRunningStep
  intro s
  cases hh : s.block.halted with
  | true =>
    by_cases hp : pend5 s.block = 0
    · exact ⟨_, exec_step_of_idle hh hp, fun _ => ⟨rfl, rfl, rfl, idleStep_bugLatch s⟩, nofun⟩
    · obtain ⟨-, hlatch, -, hcalls, hrefetch, hanswers, -⟩ := concludeStep_frame s.block.eiPending 4 s.awake
      exact ⟨_, exec_step_of_wake hh hp, fun _ => ⟨hcalls, hrefetch, hanswers, hlatch⟩, nofun⟩
  | false =>
    obtain ⟨-, hlatch, -, hcalls, hrefetch, hanswers, -⟩ := concludeStep_frame s.block.eiPending
      (nextAnswer s.block.bugLatch s.latchCleared).cost (execute s.block.bugLatch s.latchCleared)
    obtain ⟨hcalls', hrefetch', hanswers'⟩ := execute_record s.block.bugLatch s.latchCleared
    exact ⟨_, exec_step_executes hh, nofun, fun _ => ⟨hcalls.trans hcalls', hrefetch.trans hrefetch',
      hanswers.trans hanswers', fun hact => hlatch.trans (execute_sleep_flags hact).2⟩⟩

/-- Settles O33: a wake step clears `halted`, and in a running step only the hook of `SLEEP` sets it. -/
theorem asleepAfterStepOnlyByIdleOrSleep : Obligations.AsleepAfterStepOnlyByIdleOrSleep := by
  unfold Obligations.AsleepAfterStepOnlyByIdleOrSleep
  intro s t h hasleep
  cases hh : s.block.halted with
  | true =>
    by_cases hp : pend5 s.block = 0
    · exact .inl ⟨rfl, hp⟩
    · rw [exec_step_of_wake hh hp] at h
      cases h
      obtain ⟨hawake, -⟩ := concludeStep_frame s.block.eiPending 4 s.awake
      rw [hawake] at hasleep
      exact absurd hasleep nofun
  | false =>
    refine .inr ⟨rfl, by_contra fun hact => ?_⟩
    rw [exec_step_executes hh] at h
    cases h
    obtain ⟨hkeep, -⟩ := concludeStep_frame s.block.eiPending (nextAnswer s.block.bugLatch s.latchCleared).cost
      (execute s.block.bugLatch s.latchCleared)
    rw [hkeep, (execute_sleep_flags (s := s.latchCleared) hact).1] at hasleep
    exact Bool.false_ne_true (hh.symm.trans hasleep)

/-- The step of a delayed-enable instruction from Master Enable 0 ends with Master Enable 0, the delayed enable in flight and
no dispatch (R145). -/
theorem step_of_enDly {s : State} {a : ExecAnswer} {rest : List ExecAnswer} (hime : s.block.ime = false)
    (hei : s.block.eiPending = false) (hh : s.block.halted = false) (ha : s.env.answers = a :: rest)
    (hx : a.actions = [.enDly]) :
    ∃ t, exec .step s = .next t ∧ t.block.ime = false ∧ t.block.eiPending = true ∧ t.block.halted = false ∧
      t.result = .cost a.cost ∧ t.env.pc = a.pc ∧ t.env.answers = rest := by
  obtain ⟨hblock, hpc, -⟩ := execute_of_one_action (s := s.latchCleared) ha hx s.block.bugLatch
  obtain ⟨-, -, hanswers⟩ := execute_record s.block.bugLatch s.latchCleared
  replace hblock : (execute s.block.bugLatch s.latchCleared).block = enableLater s.latchCleared.block := hblock
  refine ⟨_, exec_step_of_answer hh ha, ?_⟩
  rw [hei, concludeStep_of_ime_zero (by rw [hblock]; exact hime), State.withResult_block, advanceTimer_block, hblock]
  exact ⟨by simpa using hime, by simp, by simpa using hh, rfl, hpc, hanswers.trans (congrArg List.tail ha)⟩

/-- The step of the instruction after it resolves the delayed enable: Master Enable is 1, or the step has dispatched (R145). -/
theorem step_resolves_enDly {s : State} {a : ExecAnswer} {rest : List ExecAnswer} (hei : s.block.eiPending = true)
    (hh : s.block.halted = false) (ha : s.env.answers = a :: rest)
    (hx : ExecAction.enImm ∉ a.actions ∨ a.actions = [.enImm]) :
    ∃ t, exec .step s = .next t ∧ t.block.eiPending = false ∧
      ((t.block.ime = true ∧ t.result = .cost a.cost ∧ pend5 t.block = 0) ∨
       (t.block.ime = false ∧ t.result = .cost (a.cost + 20) ∧ ∃ i : Source, t.env.pc = vector i)) := by
  have hon := execute_enables (refetch := s.block.bugLatch) (s := s.latchCleared) hei
    (by rwa [nextAnswer_of_cons (s := s.latchCleared) ha])
  refine ⟨_, exec_step_of_answer hh ha, ?_⟩
  rw [hei]
  obtain ⟨-, -, hei', -⟩ := concludeStep_frame true a.cost (execute s.block.bugLatch s.latchCleared)
  refine ⟨by simpa using hei', ?_⟩
  rcases concludeStep_cases true a.cost (execute s.block.bugLatch s.latchCleared) with
    ⟨hnone, hres, -, hime, hreq, hen⟩ | ⟨i, -, -, -, heq, hime, hpc, -⟩
  · rw [Bool.true_and, hon] at hnone hime
    exact .inl ⟨hime, hres, by rw [pend5, hreq, hen]; exact hnone.resolve_left nofun⟩
  · exact .inr ⟨hime, by rw [heq]; rfl, i, hpc⟩

/-- Settles O30: the step that arms the delayed enable, then the one that resolves it. -/
theorem delayedEnableLatency : Obligations.DelayedEnableLatency := by
  unfold Obligations.DelayedEnableLatency
  intro s a b rest hime hei hh hans ha hb
  obtain ⟨t, ht, hime', hei', hh', hres, hpc, hrest⟩ := step_of_enDly hime hei hh hans ha
  obtain ⟨u, hu, hclear, hcase⟩ := step_resolves_enDly hei' hh' hrest hb
  exact ⟨t, u, ht, hime', hei', hres, hpc, hu, hclear, hcase⟩

/-- The step of a sleep instruction that dispatches leaves the block asleep, with what was pending still so (R147). -/
theorem step_of_sleep_dispatches {s : State} {a : ExecAnswer} {rest : List ExecAnswer} (hh : s.block.halted = false)
    (ha : s.env.answers = a :: rest) (hx : a.actions = [.sleep]) (hime : s.block.ime = true)
    (hei : s.block.eiPending = false) (hpend : requestAfter a.cost s.block &&& s.block.enable &&& 0x1F ≠ 0)
    (hclear : ∀ r : Reg, s.cfg.addr r ≠ a.sp - 1 ∧ s.cfg.addr r ≠ a.sp - 2) :
    ∃ t i, exec .step s = .next t ∧ t.block.halted = true ∧ t.block.ime = false ∧ t.block.eiPending = false ∧
      pend5 t.block ≠ 0 ∧ t.result = .cost (a.cost + 20) ∧ t.env.pc = vector i ∧ t.env.sp = a.sp - 2 := by
  obtain ⟨hblock, -, hsp⟩ := execute_of_one_action (s := s.latchCleared) ha hx s.block.bugLatch
  replace hblock : (execute s.block.bugLatch s.latchCleared).block = enterSleep s.cfg s.latchCleared.block := hblock
  have hcfg : (execute s.block.bugLatch s.latchCleared).cfg = s.cfg := execute_cfg s.block.bugLatch s.latchCleared
  have hstep := exec_step_of_answer hh ha
  rw [hei] at hstep
  generalize execute s.block.bugLatch s.latchCleared = u at hblock hsp hcfg hstep
  have hpend' : requestAfter a.cost u.block &&& u.block.enable &&& 0x1F ≠ 0 := by
    rw [hblock, requestAfter_congr (b' := s.block) (by simp) (by simp) (by simp) (by simp) (by simp), enterSleep_enable]
    exact hpend
  obtain ⟨i, -, heq⟩ := concludeStep_dispatches (armed := false) (u := u) (by rw [hblock]; simpa using hime) hpend'
  refine ⟨_, i, hstep, ?_⟩
  obtain ⟨hhalted, -, hei', -⟩ := concludeStep_frame false a.cost u
  rw [heq] at hhalted hei' ⊢
  refine ⟨hhalted.trans (by rw [hblock]; simp), dispatchTo_ime i _ _, hei'.trans (by rw [hblock]; simpa using hei), ?_,
    rfl, rfl, ?_⟩
  · rw [State.withResult_block, dispatchTo_block_of_memory (by simpa [hcfg, hsp] using hclear)]
    exact (pend5_conclude false a.cost u).trans_ne hpend'
  · rw [State.withResult_env, dispatchTo_sp, sub_one_sub_one]; simp [hsp]

/-- Settles O32: the dispatch leaves Master Enable 0, so the wake step that follows resumes at the vector. -/
theorem sleepThenDispatchStaysHalted : Obligations.SleepThenDispatchStaysHalted := by
  unfold Obligations.SleepThenDispatchStaysHalted
  intro s a rest hh ha hx hime hei hpend hclear
  rw [← requestAfter_eq] at hpend
  obtain ⟨t, i, ht, hh', hime', hei', hpend', hres, hpc, hsp⟩ :=
    step_of_sleep_dispatches hh ha hx hime hei hpend hclear
  exact ⟨t, _, i, ht, hh', hime', hres, hpc, hsp, exec_step_resumes hh' hpend' hime' hei', by simp, by simpa using hime', rfl,
    rfl⟩

end Sys2Proof.Machine
end

section
/-! SUPPORT. No command stops the machine (R160). -/

namespace Sys2Proof.Machine

/-- Every operation completes: none faults and none is without a meaning (R160). -/
theorem exec_total (i : Instr) (s : State) : ∃ t, exec i s = .next t := by
  cases i <;> exact ⟨_, rfl⟩

/-- Settles O40, by what stands at the port: with no word nothing is taken, a word that spells an operation is performed and a
word that spells none is refused, each with that word alone gone from the port. -/
theorem noCommandStopsTheMachine : Obligations.NoCommandStopsTheMachine := by
  unfold Obligations.NoCommandStopsTheMachine
  intro s
  rcases step_cases s with ⟨hp, h⟩ | ⟨w, rest, i, hp, -, h⟩ | ⟨w, rest, r, hp, -, h⟩
  · exact ⟨s, h, by rw [hp]; rfl⟩
  · obtain ⟨t, ht⟩ := exec_total i (s.withPort rest)
    obtain ⟨-, hport, -⟩ := onlyStepAndDispatchTouchEnvironment _ _ _ ht
    exact ⟨t, h.trans ht, by rw [hport, hp]; rfl⟩
  · exact ⟨_, h, by rw [hp]; rfl⟩

end Sys2Proof.Machine
end

section
/-! SUPPORT. A machine asleep with no source enabled stays asleep (R190). -/

namespace Sys2Proof.Machine

/-- With the low five enable bits 0 nothing is pending, whatever was requested (R13). -/
theorem pend5_eq_zero_of_enable {b : Block} (h : b.enable &&& 0x1F = 0) : pend5 b = 0 := by
  rw [pend5, BitVec.and_assoc, h]
  exact BitVec.and_zero

/-- The word 0xB0000000 spells `STEP` under every configuration (R74, R78). -/
theorem decode_step (c : Cfg) : decode c 0xB0000000 = .ok .step :=
  decode_encode_operandless c (i := .step) (by decide)

/-- An idle step advances the counter by `IDLE_COST` (R148, R110). -/
theorem idleStep_counter (s : State) :
    (idleStep s).block.counter = s.block.counter + BitVec.ofNat 16 s.cfg.idleCost := by simp [idleStep]

/-- An idle step leaves `enable` and `halted` alone (R148). -/
theorem idleStep_enable (s : State) : (idleStep s).block.enable = s.block.enable := by simp [idleStep]
theorem idleStep_halted (s : State) : (idleStep s).block.halted = s.block.halted := by simp [idleStep]

/-- A `STEP` at the port of a machine asleep with nothing pending: the word is taken, the counter advances, and the machine
is still asleep with the same sources enabled (R70, R148). -/
theorem step_of_idle {s : State} {rest : List Word} (hp : s.port = 0xB0000000 :: rest) (hh : s.block.halted = true)
    (hpend : pend5 s.block = 0) :
    ∃ u, step s = .next u ∧ u.port = rest ∧ u.cfg = s.cfg ∧ u.env = s.env ∧ u.block.halted = true ∧
      u.block.enable = s.block.enable ∧ u.block.ime = s.block.ime ∧
      u.block.counter = s.block.counter + BitVec.ofNat 16 s.cfg.idleCost :=
  ⟨idleStep (s.withPort rest),
    (step_of_decoded hp (decode_step s.cfg)).trans (exec_step_of_idle (s := s.withPort rest) hh hpend), rfl, rfl, rfl,
    (idleStep_halted _).trans hh, idleStep_enable _, idleStep_ime _, idleStep_counter _⟩

/-- Settles O35, by induction on the number of steps: an idle step keeps `halted` and `enable`, so the next one is idle too,
even where its overflow sets a request bit. -/
theorem sleepWithNothingEnabledNeverWakes : Obligations.SleepWithNothingEnabledNeverWakes := by
  unfold Obligations.SleepWithNothingEnabledNeverWakes
  intro s k
  induction k generalizing s with
  | zero => exact fun hh _ _ => ⟨s, rfl, hh, rfl, rfl, by simp⟩
  | succ k ih =>
    intro hh hen hport
    obtain ⟨u, hstep, huport, hucfg, huenv, huhalted, huenable, huime, hucounter⟩ :=
      step_of_idle hport hh (pend5_eq_zero_of_enable hen)
    obtain ⟨t, hrun, hthalted, htenv, htime, htcounter⟩ := ih u huhalted (by rw [huenable, hen]) huport
    refine ⟨t, (run_succ Sys2Proof.core k hstep).trans hrun, hthalted, htenv.trans huenv, htime.trans huime, ?_⟩
    calc t.block.counter
        = s.block.counter + BitVec.ofNat 16 s.cfg.idleCost + BitVec.ofNat 16 (k * s.cfg.idleCost) := by
          rw [htcounter, hucounter, hucfg]
      _ = s.block.counter + BitVec.ofNat 16 ((k + 1) * s.cfg.idleCost) := by
          rw [Nat.succ_mul, Nat.add_comm, BitVec.ofNat_add, BitVec.add_assoc]

end Sys2Proof.Machine
end

section
/-! SUPPORT. The words of 95_test_vectors.md V1: a legal one is the word of its operation, an illegal one fails a check of its
format (R80), and a bus access at no register address is not this block's (R81). -/

namespace Sys2Proof

/-- The default addresses are six different ones (R7, R74). -/
theorem default_wf : Cfg.default.wf := by decide

/-- Settles O2: the legal words are encodings, which decode inverts (R79); `0x0FF04010` is a read with data, `0x50000050` names
source 5, `0xD0000000` has a reserved `op` and `0x1FF08120` is a write to 0xFF08, where no register is. -/
theorem specWordsDecode : Obligations.SpecWordsDecode := by
  unfold Obligations.SpecWordsDecode
  refine ⟨decode_encode_rd default_wf .divider, decode_encode_rd default_wf .counter, decode_encode_rd default_wf .reload,
    decode_encode_rd default_wf .control, decode_encode_rd default_wf .request, decode_encode_rd default_wf .enable,
    decode_encode_wr default_wf .control 0xFD, decode_encode_raise _ 0b11111, decode_encode_tick _ (n := 268435455) (by decide),
    decode_encode_operandless _ (i := .pendvec) (by decide), decode_encode_dispatch _ .inputEdge 0xFFFF,
    decode_encode_dispatch _ .displayVBlank 0xABCD, Machine.decode_step _, ?_, ?_, decode_reserved (.inl rfl), ?_⟩
  · rw [decode_rd rfl, decodeRd_eq_error_iff]
    have hdata : dataField 0x0FF04010 ≠ 0 := by decide
    exact .inl ⟨fun h => hdata h.2, rfl⟩
  · rw [decode_dispatch rfl, decodeDispatch_eq_error_iff]
    have hsrc : 4 < (srcField 0x50000050).toNat := by decide
    exact ⟨.inr hsrc, rfl⟩
  · rw [decode_wr rfl, decodeWr_eq_error_iff]
    have haddr : Cfg.default.regAt (addrField 0x1FF08120) = none := by decide
    exact .inr ⟨rfl, haddr, rfl⟩

end Sys2Proof
end
